-- ==== Sys2Proof/Word.lean ====
section
/-! DEFINITION. The value types of 00_scope.md rule R9, the command word of rule R57, and the two
one-bit name sets the spec gives: the button level (rule R14) and the channel number (rule R41). -/

namespace Sys2Proof

/-- The command word `cmd[63:0]` (R57). Bit 0 is its least significant bit (R11). -/
abbrev Word := BitVec 64

/-- A current value: unsigned 24 bits, read as UQ8.16; raw `n` stands for `n / 65536` semitones (R9). -/
abbrev Fix := BitVec 24

/-- A quantizer input: two's complement 25 bits, read as SQ8.16 (R9, R67). -/
abbrev SFix := BitVec 25

/-- A target: an unsigned 8-bit integer count of semitones (R9). -/
abbrev Sem := BitVec 8

/-- A scale mask: bit `i` says whether semitone class `i` is in the scale (R9, R66). -/
abbrev Mask := BitVec 12

/-- The glide control `rawControl`, 0 to 1023 (R9, R69). -/
abbrev Ctl := BitVec 10

/-- The transpose offset, two's complement 8 bits, in semitones (R9, R70). -/
abbrev Tr := BitVec 8

/-- A time stamp: unsigned 32-bit milliseconds (R9, R71). -/
abbrev Time := BitVec 32

/-- The electrical button level of R14: low is pressed (`0`), high is released (`1`). -/
inductive Level where
  | pressed
  | released
  deriving DecidableEq, Repr

/-- The one-bit channel number of R41: both values are legal and there is no other channel. -/
inductive Chan where
  | ch0
  | ch1
  deriving DecidableEq, Repr

end Sys2Proof
end

