-- ==== Sys2Proof/Syntax.lean ====
section
/-! DEFINITION. The commands of the block, one constructor for each row of opcode_table.json
(30_encoding.md rule R63), operands in the assembler's order (rule R73). -/

namespace Sys2Proof

/-- A command with its operands. -/
inductive Instr where
  /-- `NOP` (R155). -/
  | nop
  /-- `QNT value, mask` (R86). -/
  | qnt (value : SFix) (mask : Mask)
  /-- `GLD current, target, ctl` (R106). -/
  | gld (current target : Fix) (ctl : Ctl)
  /-- `BYP btn, now` (R126). -/
  | byp (btn : Level) (now : Time)
  /-- `CHU ch, value, mask, tr, ctl` (R144). -/
  | chu (ch : Chan) (value : SFix) (mask : Mask) (tr : Tr) (ctl : Ctl)
  /-- `RSV5`, a reserved opcode (R156). -/
  | rsv5
  /-- `RSV6`, a reserved opcode (R156). -/
  | rsv6
  /-- `RSV7`, a reserved opcode (R156). -/
  | rsv7
  deriving DecidableEq, Repr

end Sys2Proof
end

