-- ==== Sys2Proof/Decode.lean ====
section
/-! DEFINITION. The decoder of the 64-bit command word, total on all `2^64` words (30_encoding.md rules
R57 to R65), and the encoder written from the same five formats. No word is rejected, because the spec
rejects none: R65 says that every word decodes to exactly one row of R63. -/

namespace Sys2Proof

/-- The level a bit stands for: `1` is high, released; `0` is low, pressed (R14). -/
def Level.ofBit (b : Bool) : Level := if b then .released else .pressed

/-- The bit of a level (R14). -/
def Level.toBit : Level → BitVec 1
  | .pressed => 0b0#1
  | .released => 0b1#1

/-- The channel a bit selects (R41). -/
def Chan.ofBit (b : Bool) : Chan := if b then .ch1 else .ch0

/-- The bit of a channel (R41). -/
def Chan.toBit : Chan → BitVec 1
  | .ch0 => 0b0#1
  | .ch1 => 0b1#1

/-- Format Q (R59): `mask` at 60:49, `value` at 24:0. -/
def decodeQ (w : Word) : Instr :=
  .qnt (w.extractLsb' 0 25) (w.extractLsb' 49 12)

/-- Format G (R60): `ctl` at 60:51, `target` at 47:24, `current` at 23:0. -/
def decodeG (w : Word) : Instr :=
  .gld (w.extractLsb' 0 24) (w.extractLsb' 24 24) (w.extractLsb' 51 10)

/-- Format B (R61): `btn` at 32, `now` at 31:0. -/
def decodeB (w : Word) : Instr :=
  .byp (Level.ofBit (w.getLsbD 32)) (w.extractLsb' 0 32)

/-- Format C (R62): `ch` at 60, `mask` at 59:48, `ctl` at 47:38, `tr` at 37:30, `value` at 24:0. -/
def decodeC (w : Word) : Instr :=
  .chu (Chan.ofBit (w.getLsbD 60)) (w.extractLsb' 0 25) (w.extractLsb' 48 12) (w.extractLsb' 30 8)
    (w.extractLsb' 38 10)

/-- The opcode map of R63, read off the three bits 63, 62, 61 and no other bit (R57). -/
def decode (w : Word) : Instr :=
  match w.getLsbD 63, w.getLsbD 62, w.getLsbD 61 with
  | false, false, false => .nop
  | false, false, true => decodeQ w
  | false, true, false => decodeG w
  | false, true, true => decodeB w
  | true, false, false => decodeC w
  | true, false, true => .rsv5
  | true, true, false => .rsv6
  | true, true, true => .rsv7

/-- The host's table word: every row is one 64-bit word, so its bits are the command word's bits. A
word of more than 64 bits is no command word. -/
def decodeTableWord (nbits w : Nat) : Option Instr :=
  if nbits ≤ 64 then some (decode (BitVec.ofNat 64 (w % 2 ^ nbits))) else none

/-- The `op` field of a command (R63). -/
def Instr.opcode : Instr → BitVec 3
  | .nop => 0b000#3
  | .qnt _ _ => 0b001#3
  | .gld _ _ _ => 0b010#3
  | .byp _ _ => 0b011#3
  | .chu _ _ _ _ _ => 0b100#3
  | .rsv5 => 0b101#3
  | .rsv6 => 0b110#3
  | .rsv7 => 0b111#3

/-- The bits of a word of this command that its format does not mark ignored (R58 to R62). -/
def Instr.usedBits : Instr → Word
  | .nop => 0xE000000000000000#64
  | .qnt _ _ => 0xFFFE000001FFFFFF#64
  | .gld _ _ _ => 0xFFF8FFFFFFFFFFFF#64
  | .byp _ _ => 0xE0000001FFFFFFFF#64
  | .chu _ _ _ _ _ => 0xFFFFFFFFC1FFFFFF#64
  | .rsv5 => 0xE000000000000000#64
  | .rsv6 => 0xE000000000000000#64
  | .rsv7 => 0xE000000000000000#64

/-- The assembler's word for a command: fields from bit 63 down, every ignored bit zero (R64). -/
def encode : Instr → Word
  | .nop => 0b000#3 ++ 0#61
  | .qnt value mask => 0b001#3 ++ mask ++ 0#24 ++ value
  | .gld current target ctl => 0b010#3 ++ ctl ++ 0#3 ++ target ++ current
  | .byp btn now => 0b011#3 ++ 0#28 ++ btn.toBit ++ now
  | .chu ch value mask tr ctl => 0b100#3 ++ ch.toBit ++ mask ++ ctl ++ tr ++ 0#5 ++ value
  | .rsv5 => 0b101#3 ++ 0#61
  | .rsv6 => 0b110#3 ++ 0#61
  | .rsv7 => 0b111#3 ++ 0#61

end Sys2Proof
end

