-- ==== Sys2Proof/Config.lean ====
section
/-! DEFINITION. The open parameters of the block (00_scope.md rule R10) and the one free value of the
model, the number of cycles a command takes (70_reset_and_hazards.md rule R236). -/

namespace Sys2Proof

/-- The configuration `Cfg` of R10, each field in exactly the range R10 gives it, so every value of
this type is a configuration the rules are total for. It is fixed when the block is built (R216). -/
structure Cfg where
  /-- `MAX_SEMITONES`, `0` to `255`: the top of the semitone range. -/
  maxSemitones : Fin 256
  /-- `DEBOUNCE_MS`, `0` to `2^32 - 1`: the debounce interval. -/
  debounceMs : Fin 4294967296
  /-- `SNAP_THRESHOLD`, `0` to `1024`: below it the glide filter snaps. -/
  snapThreshold : Fin 1025
  deriving DecidableEq, Repr

/-- The reference configuration `REF` of R10, which the test vectors of 95_test_vectors.md use. -/
def Cfg.ref : Cfg := ⟨60, 50, 40⟩

/-- FREE VALUE (log entry 5). How many cycles beyond the first the `n`-th accepted command takes: R56
and R236 leave the latency open but for its being at least 1 and finite, so nothing can be proved of
this function's values. Only the port layer of Machine/Port.lean reads it. -/
opaque Config.extraCycles : Nat → Nat

end Sys2Proof
end

