-- ==== Sys2Proof/Machine/State.lean ====
section
/-! DEFINITION. The machine's state. `Regs` is the record of 10_state.md rule R20, field for field.
`State` puts beside it what the step function takes and gives besides the registers (00_scope.md rule
R6): the configuration the block was built with, the driver's inputs not yet taken, and the result of
the step just made. -/

namespace Sys2Proof.Machine

/-- The seven registers: "the architectural state of the block is exactly this record" (R20). -/
structure Regs where
  /-- `cur[0]`, channel 0 `currentValue` (R21). -/
  cur0 : Fix
  /-- `cur[1]`, channel 1 `currentValue` (R21). -/
  cur1 : Fix
  /-- `tgt[0]`, channel 0 `targetValue` (R22). -/
  tgt0 : Sem
  /-- `tgt[1]`, channel 1 `targetValue` (R22). -/
  tgt1 : Sem
  /-- The Bypass Flag, true when bypass is ON (R23). -/
  byp : Bool
  /-- The last observed raw button level (R24). -/
  lvl : Level
  /-- The time stamp of the last accepted transition, milliseconds (R25). -/
  tacc : Time
  deriving DecidableEq, Repr

/-- The four result flags of R28, in the order `res_flags` carries them from bit 3 down (R72). -/
structure ResFlags where
  ill : Bool
  skip : Bool
  tog : Bool
  miss : Bool
  deriving DecidableEq, Repr

/-- The result of one accepted command (R72). -/
structure Result where
  /-- `res_val`. -/
  val : Fix
  /-- `res_flags`. -/
  flags : ResFlags
  deriving DecidableEq, Repr

/-- What the driver can do to the block (R7): issue a command word, or assert reset, which a model on
command lists treats as an event of its own (R217). -/
inductive Input where
  | command (w : Word)
  | reset
  deriving DecidableEq, Repr

/-- The machine: plain data. -/
structure State where
  /-- The configuration the block was built with (R10, R216); no step changes it. -/
  cfg : Cfg
  /-- The registers (R20). -/
  regs : Regs
  /-- The driver's inputs not yet taken, the next one first: the input sequence of R5. -/
  input : List Input
  /-- The result the last step presented, `none` where `res_valid` is low (R56). -/
  res : Option Result
  deriving DecidableEq, Repr

/-- What can stop the machine: nothing. "There is no behaviour in this spec that a model must treat as
`fault`" (93_implementation_defined.md), and R185 leaves only the next state, so no step raises a fault
and the type has no constructor. Safe: nothing can be wrongly excused by a fault. -/
inductive Fault where
  deriving DecidableEq, Repr

/-- The refusals. -/
inductive Refusal where
  /-- Raised by an arm of `exec` whose instruction has no meaning yet; no arm raises it (R185 leaves no
  refusal outcome). Safe. -/
  | notModelled (mnemonic : String)
  deriving DecidableEq, Repr

/-- The registers after reset (R32). -/
def Regs.reset : Regs where
  cur0 := 0
  cur1 := 0
  tgt0 := 0
  tgt1 := 0
  byp := false
  lvl := .released
  tacc := 0

/-- The block of configuration `cfg` right after reset: the registers of R32, no input taken or waiting,
no result presented. -/
def State.resetWith (cfg : Cfg) : State where
  cfg := cfg
  regs := Regs.reset
  input := []
  res := none

/-- The machine right after reset, at the reference configuration of R10 (log entry 1). -/
def State.reset : State := State.resetWith Cfg.ref

end Sys2Proof.Machine
end

