-- ==== Sys2Proof/Machine/Ops.lean ====
section
/-! DEFINITION. The helper functions of 00_scope.md rule R13 and the named operations on the registers and
on the state. There is no memory (20_memory.md rule R40) and no exception to take (60_exceptions.md rule
R190), so there are no operations for either. -/

namespace Sys2Proof.Machine

/-- `clamp(x, lo, hi)` of R13. -/
def clamp (x lo hi : Int) : Int :=
  if x < lo then lo else if hi < x then hi else x

/-- `mod12(x)` of R13: the semitone class, in `0..11` for negative `x` too. -/
def mod12 (x : Int) : Int := x - 12 * (x / 12)

/-- `tdiv(a, b)` of R13: division truncating toward zero. -/
def tdiv (a : Int) (b : Nat) : Int := a.sign * ((a.natAbs / b : Nat) : Int)

/-- `toFix(s)` of R13: the integer semitone `s` as a `Fix`, `s * 65536`. -/
def toFix (s : Sem) : Fix := BitVec.ofNat 24 (s.toNat * 65536)

/-- `real(n)` of R13: the number of semitones a `Fix` or `SFix` raw value stands for. -/
def realOf (n : Int) : Rat := n / 65536

/-- `cur[ch]` (R20, R41). -/
def Regs.cur (r : Regs) : Chan → Fix
  | .ch0 => r.cur0
  | .ch1 => r.cur1

/-- `tgt[ch]` (R20, R41). -/
def Regs.tgt (r : Regs) : Chan → Sem
  | .ch0 => r.tgt0
  | .ch1 => r.tgt1

/-- `tgt[ch] <- t` and `cur[ch] <- v` together, as `CHU` writes them (R144). -/
def Regs.setChannel (r : Regs) (ch : Chan) (t : Sem) (v : Fix) : Regs :=
  match ch with
  | .ch0 => { r with tgt0 := t, cur0 := v }
  | .ch1 => { r with tgt1 := t, cur1 := v }

/-- `cur[ch] <- toFix(tgt[ch])` for both channels at once (R124). -/
def Regs.resync (r : Regs) : Regs :=
  { r with cur0 := toFix r.tgt0, cur1 := toFix r.tgt1 }

/-- The same machine with other inputs still to come. -/
def State.withInput (s : State) (l : List Input) : State := { s with input := l }

/-- The registers replaced, all writes of a command together (R12, R45). -/
def State.withRegs (s : State) (r : Regs) : State := { s with regs := r }

/-- Present a result: `res_valid` high with these values (R56). -/
def State.respond (s : State) (r : Result) : State := { s with res := some r }

/-- Lower `res_valid` (R56). -/
def State.clearResult (s : State) : State := { s with res := none }

/-- Reset asserted (R215, R217): all seven registers take the values of R32 and `res_valid` is low. The
configuration is not changed by reset (R216), and what the driver does later is not either. -/
def State.applyReset (s : State) : State := { s with regs := Regs.reset, res := none }

/-- The output ports that show state, and the result ports (R30, R55). `lvl` and `tacc` have no port
(R31). Where `result` is `none`, `res_valid` is low and `res_val`, `res_flags` have no meaning (R56). -/
structure Ports where
  cur0 : Fix
  cur1 : Fix
  tgt0 : Sem
  tgt1 : Sem
  bypass : Bool
  result : Option Result
  deriving DecidableEq, Repr

/-- What the driver sees after a step (R30). -/
def State.ports (s : State) : Ports where
  cur0 := s.regs.cur0
  cur1 := s.regs.cur1
  tgt0 := s.regs.tgt0
  tgt1 := s.regs.tgt1
  bypass := s.regs.byp
  result := s.res

end Sys2Proof.Machine
end

