-- ==== Sys2Proof/Machine/Flags.lean ====
section
/-! DEFINITION. The result flags of 10_state.md rule R28 and their places in `res_flags` (30_encoding.md
rule R72). They are bits of a result and no command reads them. -/

namespace Sys2Proof.Machine

/-- `res_flags[3:0] = {ill, skip, tog, miss}` (R55, R72). -/
def ResFlags.toBits (f : ResFlags) : BitVec 4 :=
  BitVec.ofBool f.ill ++ BitVec.ofBool f.skip ++ BitVec.ofBool f.tog ++ BitVec.ofBool f.miss

/-- No flag set: `NOP` and `GLD` (R155, R106). -/
def ResFlags.clear : ResFlags := ⟨false, false, false, false⟩

/-- Only `miss`, as the quantizer reports it: `QNT`, and `CHU` where it ran (R86, R144). -/
def ResFlags.ofMiss (miss : Bool) : ResFlags := ⟨false, false, false, miss⟩

/-- Only `tog`, set when the Bypass Flag toggled: `BYP` (R126). -/
def ResFlags.ofTog (tog : Bool) : ResFlags := ⟨false, false, tog, false⟩

/-- `skip` alone: `CHU` under bypass (R141). -/
def ResFlags.skipped : ResFlags := ⟨false, true, false, false⟩

/-- `ill` alone: a reserved opcode (R156). -/
def ResFlags.illegal : ResFlags := ⟨true, false, false, false⟩

end Sys2Proof.Machine
end

