-- ==== Sys2Proof/Machine/Operands.lean ====
section
/-! DEFINITION. How each operand of a command is read as a number (30_encoding.md rules R66 to R71), and
the masks the spec lists. -/

namespace Sys2Proof.Machine

/-- The raw integer of a `value` operand, bit 24 being its sign (R67). -/
def valueOf (v : SFix) : Int := v.toInt

/-- The raw integer of a `current` or `target` operand or register (R68). -/
def fixOf (v : Fix) : Int := (v.toNat : Int)

/-- The transpose offset in semitones, `sext(tr)` (R70). -/
def transposeOf (tr : Tr) : Int := tr.toInt

/-- Class `i` is in the scale of mask `m`: `m[i] = 1` (R66). -/
def hasClass (m : Mask) (i : Nat) : Bool := m.getLsbD i

/-- Semitone `s` is in-scale for mask `m`: `m[mod12(s)] = 1` (R17). -/
def inScale (m : Mask) (s : Int) : Bool := hasClass m (mod12 s).toNat

/-- The number of a list of bits, the first one in the lowest place. -/
def natOfBits : List Bool → Nat
  | [] => 0
  | b :: bs => b.toNat + 2 * natOfBits bs

/-- A brace list `b0,b1,...,b11` as a mask, its first entry at bit 0 (R66). -/
def maskOfList (bs : List Bool) : Mask := BitVec.ofNat 12 (natOfBits bs)

/-- Major, the source's own mask (R66). -/
def Scale.major : Mask :=
  maskOfList [true, false, true, false, true, true, false, true, false, true, false, true]

/-- Pentatonic Minor, the source's own mask (R66). -/
def Scale.pentatonicMinor : Mask :=
  maskOfList [true, false, false, true, false, true, false, true, false, false, true, false]

/-- Natural Minor; PRESUMED, R66 gives it from general knowledge (log entry 9). -/
def Scale.naturalMinor : Mask :=
  maskOfList [true, false, true, true, false, true, false, true, true, false, true, false]

/-- Harmonic Minor; PRESUMED (log entry 9). -/
def Scale.harmonicMinor : Mask :=
  maskOfList [true, false, true, true, false, true, false, true, true, false, false, true]

/-- Pentatonic Major; PRESUMED (log entry 9). -/
def Scale.pentatonicMajor : Mask :=
  maskOfList [true, false, true, false, true, false, false, true, false, true, false, false]

/-- Dorian; PRESUMED (log entry 9). -/
def Scale.dorian : Mask :=
  maskOfList [true, false, true, true, false, true, false, true, false, true, true, false]

/-- Phrygian; PRESUMED (log entry 9). -/
def Scale.phrygian : Mask :=
  maskOfList [true, true, false, true, false, true, false, true, true, false, true, false]

end Sys2Proof.Machine
end

