-- ==== Sys2Proof/Machine/Bypass.lean ====
section
/-! DEFINITION. The Bypass Controller and the `BYP` command (42_bypass.md). -/

namespace Sys2Proof.Machine

/-- `elapsed = (now - tacc) mod 2^32` (R121). -/
def elapsed (now tacc : Time) : Time := now - tacc

/-- More than `DEBOUNCE_MS` have elapsed since the last accepted transition; the comparison is strict
(R122). -/
def late (cfg : Cfg) (r : Regs) (now : Time) : Bool :=
  decide (cfg.debounceMs.val < (elapsed now r.tacc).toNat)

/-- `fire` of R122: late, and an edge from released to pressed. -/
def fires (cfg : Cfg) (r : Regs) (btn : Level) (now : Time) : Bool :=
  late cfg r now && btn == .pressed && r.lvl == .released

/-- The effect of firing: the resync when bypass goes OFF (R124), the toggle and the time stamp (R123). -/
def Regs.toggle (r : Regs) (now : Time) : Regs :=
  { (if r.byp then r.resync else r) with byp := !r.byp, tacc := now }

/-- The registers after one step of the controller. The level is recorded whether or not it fired
(R125). -/
def bypassStep (cfg : Cfg) (r : Regs) (btn : Level) (now : Time) : Regs :=
  { (if fires cfg r btn now then r.toggle now else r) with lvl := btn }

/-- `zext_24` of a flag (R126). -/
def zextFlag (b : Bool) : Fix := if b then 1 else 0

/-- The source's two conceptual states, which no register holds (R128). -/
inductive DebouncePhase where
  | idle
  | justToggled
  deriving DecidableEq, Repr

/-- The phase the controller is in at a `BYP` at time `now`: `justToggled` is the lockout (R128). -/
def debouncePhase (cfg : Cfg) (r : Regs) (now : Time) : DebouncePhase :=
  if late cfg r now then .idle else .justToggled

/-- `BYP btn, now` (R126). -/
def execByp (btn : Level) (now : Time) (s : State) : Host.Outcome State Fault Refusal :=
  .next ((s.withRegs (bypassStep s.cfg s.regs btn now)).respond
    ⟨zextFlag (bypassStep s.cfg s.regs btn now).byp, .ofTog (fires s.cfg s.regs btn now)⟩)

end Sys2Proof.Machine
end

