-- ==== Sys2Proof/Machine/Glide.lean ====
section
/-! DEFINITION. The Glide (Portamento) Filter and the `GLD` command (41_glide.md). -/

namespace Sys2Proof.Machine

/-- The control lies in the snap region (R101): the comparison is strict. -/
def snaps (cfg : Cfg) (ctl : Ctl) : Bool := decide (ctl.toNat < cfg.snapThreshold.val)

/-- `steps(ctl) = 1 + floor(32 * ctl / 1023)` (R102). -/
def steps (ctl : Ctl) : Nat := 1 + 32 * ctl.toNat / 1023

/-- `delta` of R103: the fraction of the distance one call moves, truncated toward zero (R104). -/
def glideDelta (current target : Fix) (ctl : Ctl) : Int :=
  tdiv (fixOf target - fixOf current) (steps ctl)

/-- `glide(cfg, current, target, ctl)` (R100): the target in the snap region (R101), else the update of
R103, whose result always fits 24 bits (R105). -/
def glide (cfg : Cfg) (current target : Fix) (ctl : Ctl) : Fix :=
  if snaps cfg ctl then target
  else BitVec.ofInt 24 (fixOf current + glideDelta current target ctl)

/-- `n` calls of `glide`, the output of one being the `current` of the next (R107). -/
def glideTimes (cfg : Cfg) (target : Fix) (ctl : Ctl) : Nat → Fix → Fix
  | 0, current => current
  | n + 1, current => glideTimes cfg target ctl n (glide cfg current target ctl)

/-- `GLD current, target, ctl` (R106): a calculator, no register is written and none is read. -/
def execGld (current target : Fix) (ctl : Ctl) (s : State) : Host.Outcome State Fault Refusal :=
  .next (s.respond ⟨glide s.cfg current target ctl, .clear⟩)

end Sys2Proof.Machine
end

