-- ==== Sys2Proof/Machine/Quantize.lean ====
section
/-! DEFINITION. The Quantization Engine and the `QNT` command (40_quantize.md). -/

namespace Sys2Proof.Machine

/-- Step 1 (R81): round half away from zero, on the raw integer and without wrap. -/
def rhaz (v : Int) : Int :=
  if 0 ≤ v then (v + 32768) / 65536 else -((-v + 32768) / 65536)

/-- Step 2 (R82): the rounded value clamped into `[0, MAX_SEMITONES]`. -/
def candidate (cfg : Cfg) (v : SFix) : Int :=
  clamp (rhaz (valueOf v)) 0 (cfg.maxSemitones.val : Int)

/-- `ok(s)` of R83: in range and in-scale. -/
def acceptable (cfg : Cfg) (m : Mask) (s : Int) : Bool :=
  decide (0 ≤ s) && decide (s ≤ (cfg.maxSemitones.val : Int)) && inScale m s

/-- Step 3 (R83): at each radius of the list, first `c - d`, then `c + d`. -/
def search (cfg : Cfg) (m : Mask) (c : Int) : List Nat → Option Int
  | [] => none
  | d :: ds =>
    if acceptable cfg m (c - d) then some (c - d)
    else if acceptable cfg m (c + d) then some (c + d)
    else search cfg m c ds

/-- The thirteen radii in the order the source runs them (R83, R8). -/
def radii : List Nat := List.range 13

/-- `quantize(cfg, v, m) = (q, miss)` (R80): the first hit of the search, or the candidate with
`miss` (step 4, R84). -/
def quantize (cfg : Cfg) (v : SFix) (m : Mask) : Sem × Bool :=
  match search cfg m (candidate cfg v) radii with
  | some q => (BitVec.ofInt 8 q, false)
  | none => (BitVec.ofInt 8 (candidate cfg v), true)

/-- `QNT value, mask` (R86): no register is written and none is read (R85). -/
def execQnt (value : SFix) (mask : Mask) (s : State) : Host.Outcome State Fault Refusal :=
  .next (s.respond ⟨toFix (quantize s.cfg value mask).1, .ofMiss (quantize s.cfg value mask).2⟩)

end Sys2Proof.Machine
end

