-- ==== Sys2Proof/Machine/Channel.lean ====
section
/-! DEFINITION. The channel update and the `CHU` command (43_channel.md). -/

namespace Sys2Proof.Machine

/-- The new target of R142: the quantized semitone, transposed on integers, then clamped; it is not
quantized again. -/
def channelTarget (cfg : Cfg) (value : SFix) (mask : Mask) (tr : Tr) : Sem :=
  BitVec.ofInt 8
    (clamp (((quantize cfg value mask).1.toNat : Int) + transposeOf tr) 0 (cfg.maxSemitones.val : Int))

/-- The new current value of R143: the old one glides toward the target of this same command. -/
def channelCurrent (cfg : Cfg) (old : Fix) (value : SFix) (mask : Mask) (tr : Tr) (ctl : Ctl) : Fix :=
  glide cfg old (toFix (channelTarget cfg value mask tr)) ctl

/-- `CHU ch, value, mask, tr, ctl` (R144): under bypass nothing changes and `skip` is reported (R141). -/
def execChu (ch : Chan) (value : SFix) (mask : Mask) (tr : Tr) (ctl : Ctl) (s : State) :
    Host.Outcome State Fault Refusal :=
  if s.regs.byp then .next (s.respond ⟨s.regs.cur ch, .skipped⟩)
  else
    .next ((s.withRegs (s.regs.setChannel ch (channelTarget s.cfg value mask tr)
        (channelCurrent s.cfg (s.regs.cur ch) value mask tr ctl))).respond
      ⟨channelCurrent s.cfg (s.regs.cur ch) value mask tr ctl, .ofMiss (quantize s.cfg value mask).2⟩)

end Sys2Proof.Machine
end

