-- ==== Sys2Proof/Machine/Reserved.lean ====
section
/-! DEFINITION. `NOP` and the reserved opcodes (44_nop_reserved.md). A reserved opcode is a defined command
that changes nothing and reports `ill`; it does not trap. -/

namespace Sys2Proof.Machine

/-- `NOP` (R155). -/
def execNop (s : State) : Host.Outcome State Fault Refusal := .next (s.respond ⟨0, .clear⟩)

/-- `RSV5` (R156). -/
def execRsv5 (s : State) : Host.Outcome State Fault Refusal := .next (s.respond ⟨0, .illegal⟩)

/-- `RSV6` (R156). -/
def execRsv6 (s : State) : Host.Outcome State Fault Refusal := .next (s.respond ⟨0, .illegal⟩)

/-- `RSV7` (R156). -/
def execRsv7 (s : State) : Host.Outcome State Fault Refusal := .next (s.respond ⟨0, .illegal⟩)

end Sys2Proof.Machine
end

