-- ==== Sys2Proof/Machine/Dispatch.lean ====
section
/-! DEFINITION. The dispatch: one arm per row of opcode_table.json (30_encoding.md rule R63). -/

namespace Sys2Proof.Machine

def exec (i : Instr) (s : State) : Host.Outcome State Fault Refusal :=
  match i with
  | .nop => Sys2Proof.Machine.execNop s
  | .qnt value mask => Sys2Proof.Machine.execQnt value mask s
  | .gld current target ctl => Sys2Proof.Machine.execGld current target ctl s
  | .byp btn now => Sys2Proof.Machine.execByp btn now s
  | .chu ch value mask tr ctl => Sys2Proof.Machine.execChu ch value mask tr ctl s
  | .rsv5 => Sys2Proof.Machine.execRsv5 s
  | .rsv6 => Sys2Proof.Machine.execRsv6 s
  | .rsv7 => Sys2Proof.Machine.execRsv7 s

end Sys2Proof.Machine
end

