-- ==== Sys2Proof/Machine/Step.lean ====
section
/-! DEFINITION. One step: the block takes the driver's next input. It has no program counter and fetches
nothing (10_state.md rule R27); the order of execution is the order of the inputs (30_encoding.md rule
R56). -/

namespace Sys2Proof.Machine

/-- The step. With a command word next, the word is consumed and its command executed (R51, R56). With a
reset next, the registers are reset (R217). With nothing next the block idles: no register changes
spontaneously (R34, R199) and no result is presented (log entry 4). -/
def step (s : State) : Host.Outcome State Fault Refusal :=
  match s.input with
  | [] => .next s.clearResult
  | .command w :: rest => exec (decode w) (s.withInput rest)
  | .reset :: rest => .next (s.withInput rest).applyReset

/-- `s` with the driver presenting this command word next (log entry 2). -/
def State.withFetchWord (s : State) (nbits w : Nat) : State :=
  s.withInput (.command (BitVec.ofNat 64 (w % 2 ^ nbits)) :: s.input)

end Sys2Proof.Machine
end

