-- ==== Sys2Proof/AsmLine.lean ====
section
/-! DEFINITION. One assembler statement (30_encoding.md rules R73, R74) with its operands as the numbers
the source text writes, before any check that they fit their fields. -/

namespace Sys2Proof

/-- An assembler statement. A `value`, `current` or `target` is given in units of `2^-16` semitone. -/
inductive AsmLine where
  | nop
  | qnt (value : Int) (mask : Nat)
  | gld (current target : Int) (ctl : Nat)
  | byp (btn : Level) (now : Nat)
  | chu (ch : Nat) (value : Int) (mask : Nat) (tr : Int) (ctl : Nat)
  /-- The one pseudo-instruction (R74, R165). -/
  | tick (btn : Level) (now mask : Nat) (tr : Int) (ctl : Nat) (value0 value1 : Int)
  deriving DecidableEq, Repr

end Sys2Proof
end

