-- ==== Sys2Proof/Machine/Run.lean ====
section
/-! DEFINITION. Runs of commands and their observation (45_tick_sequence.md rule R173), and the `TICK`
pseudo-instruction as the three commands it expands to (rule R165). -/

namespace Sys2Proof.Machine

/-- The state a command leaves. Every command answers a next state (R185), so the two other outcomes
never arise. -/
def afterInstr (i : Instr) (s : State) : State :=
  match exec i s with
  | .next t => t
  | .fault e => nomatch e
  | .refused _ => s

/-- The state after a list of commands, in order, each seeing what the one before it wrote (R48). -/
def runInstrs : List Instr → State → State
  | [], s => s
  | i :: is, s => runInstrs is (afterInstr i s)

/-- The results of a list of commands, one per command (R72). -/
def resultsOf : List Instr → State → List Result
  | [], _ => []
  | i :: is, s => (afterInstr i s).res.toList ++ resultsOf is (afterInstr i s)

/-- The observation of a run (R173): the final registers and the list of results. -/
structure Observation where
  regs : Regs
  results : List Result
  deriving DecidableEq, Repr

/-- The run of a list of accepted command words from a stated start state (R173). -/
def observe (ws : List Word) (s : State) : Observation where
  regs := (runInstrs (ws.map decode) s).regs
  results := resultsOf (ws.map decode) s

/-- The operands of one `TICK` (R74): one reading of the inputs, shared by both channels (R167). -/
structure Tick where
  btn : Level
  now : Time
  mask : Mask
  tr : Tr
  ctl : Ctl
  value0 : SFix
  value1 : SFix
  deriving DecidableEq, Repr

/-- `TICK` is `BYP`, then `CHU 0`, then `CHU 1` (R165). -/
def Tick.expand (k : Tick) : List Instr :=
  [.byp k.btn k.now, .chu .ch0 k.value0 k.mask k.tr k.ctl, .chu .ch1 k.value1 k.mask k.tr k.ctl]

end Sys2Proof.Machine
end

