-- ==== Sys2Proof/WellFormed.lean ====
section
/-! DEFINITION. What the spec calls well-formed: a command, a mask, a rooted mask, a configuration, and
an assembler statement whose operands fit their fields. -/

namespace Sys2Proof

/-- Every command is well-formed: inside the defined opcodes no operand value is reserved, and a
reserved opcode has no operands (R65). The operands' widths are in their types. -/
def Instr.wf : Instr → Bool
  | .nop => true
  | .qnt _ _ => true
  | .gld _ _ _ => true
  | .byp _ _ => true
  | .chu _ _ _ _ _ => true
  | .rsv5 => true
  | .rsv6 => true
  | .rsv7 => true

/-- A mask is well-formed when it is not zero (R66). The block accepts the other one too. -/
def Mask.wf (m : Mask) : Bool := m != 0

/-- A mask is rooted when it holds class 0 (R66). -/
def Mask.rooted (m : Mask) : Bool := m.getLsbD 0

/-- A configuration is well-formed when `MAX_SEMITONES >= 11` (R10). The rules hold of the others too. -/
def Cfg.wf (c : Cfg) : Bool := decide (11 ≤ c.maxSemitones.val)

/-- `value` fits an `SFix` (R67). -/
def fitsSFix (v : Int) : Bool := decide (-16777216 ≤ v ∧ v ≤ 16777215)

/-- `current` or `target` fits a `Fix` (R68). -/
def fitsFix (v : Int) : Bool := decide (0 ≤ v ∧ v ≤ 16777215)

/-- A mask literal lies in `0x000` to `0xFFF` (R73). -/
def fitsMask (m : Nat) : Bool := decide (m ≤ 0xFFF)

/-- A control literal lies in 0 to 1023 (R73). -/
def fitsCtl (c : Nat) : Bool := decide (c ≤ 1023)

/-- A transpose literal lies in -128 to 127 (R73). -/
def fitsTr (t : Int) : Bool := decide (-128 ≤ t ∧ t ≤ 127)

/-- A time literal lies in 0 to 4294967295 (R73). -/
def fitsTime (t : Nat) : Bool := decide (t ≤ 4294967295)

/-- A channel literal is 0 or 1 (R73). -/
def fitsChan (c : Nat) : Bool := decide (c ≤ 1)

/-- Every operand of the statement is in the range R73 gives it. -/
def AsmLine.wf : AsmLine → Bool
  | .nop => true
  | .qnt value mask => fitsSFix value && fitsMask mask
  | .gld current target ctl => fitsFix current && fitsFix target && fitsCtl ctl
  | .byp _ now => fitsTime now
  | .chu ch value mask tr ctl => fitsChan ch && fitsSFix value && fitsMask mask && fitsTr tr && fitsCtl ctl
  | .tick _ now mask tr ctl value0 value1 =>
    fitsTime now && fitsMask mask && fitsTr tr && fitsCtl ctl && fitsSFix value0 && fitsSFix value1

end Sys2Proof
end

