-- ==== Sys2Proof/Machine/Assembler.lean ====
section
/-! DEFINITION. The assembler of 30_encoding.md rules R73, R74: from the characters of one line to the
command words. What R73 leaves open of its text (white space, letter case of hexadecimal digits, the
number of digits) is log entry 8. -/

namespace Sys2Proof.Machine

/-- The command or commands of a statement, `TICK` expanded in the order of R74. -/
def expandLine : AsmLine → List Instr
  | .nop => [.nop]
  | .qnt value mask => [.qnt (BitVec.ofInt 25 value) (BitVec.ofNat 12 mask)]
  | .gld current target ctl =>
    [.gld (BitVec.ofInt 24 current) (BitVec.ofInt 24 target) (BitVec.ofNat 10 ctl)]
  | .byp btn now => [.byp btn (BitVec.ofNat 32 now)]
  | .chu ch value mask tr ctl =>
    [.chu (Chan.ofBit (decide (ch = 1))) (BitVec.ofInt 25 value) (BitVec.ofNat 12 mask) (BitVec.ofInt 8 tr)
      (BitVec.ofNat 10 ctl)]
  | .tick btn now mask tr ctl value0 value1 =>
    Tick.expand ⟨btn, BitVec.ofNat 32 now, BitVec.ofNat 12 mask, BitVec.ofInt 8 tr, BitVec.ofNat 10 ctl,
      BitVec.ofInt 25 value0, BitVec.ofInt 25 value1⟩

/-- The words of a statement; none where an operand is out of its range (R73). -/
def assemble (l : AsmLine) : Option (List Word) :=
  if l.wf then some ((expandLine l).map encode) else none

/-- A blank between words. -/
def isBlank (c : Char) : Bool := c == ' ' || c == '\t'

/-- A text without the blanks around it. -/
def trim (cs : List Char) : List Char := ((cs.dropWhile isBlank).reverse.dropWhile isBlank).reverse

/-- The two braces of a mask list (R66). -/
def braceOpen : Char := Char.ofNat 0x7B

/-- See `braceOpen`. -/
def braceClose : Char := Char.ofNat 0x7D

/-- Cut at the commas that stand outside braces; `part` is the current part, reversed. -/
def splitOperands (inBraces : Bool) (part : List Char) : List Char → List (List Char)
  | [] => [trim part.reverse]
  | c :: cs =>
    if c == ',' && !inBraces then trim part.reverse :: splitOperands false [] cs
    else splitOperands (if c == braceOpen then true else if c == braceClose then false else inBraces)
      (c :: part) cs

/-- A decimal digit. -/
def decDigit (c : Char) : Option Nat :=
  if '0' ≤ c ∧ c ≤ '9' then some (c.toNat - '0'.toNat) else none

/-- A hexadecimal digit, in either case. -/
def hexDigit (c : Char) : Option Nat :=
  if 'a' ≤ c ∧ c ≤ 'f' then some (c.toNat - 'a'.toNat + 10)
  else if 'A' ≤ c ∧ c ≤ 'F' then some (c.toNat - 'A'.toNat + 10)
  else decDigit c

/-- The digits read so far, continued; none at a character that is no digit. -/
def readDigits (base : Nat) (digit : Char → Option Nat) (acc : Nat) : List Char → Option Nat
  | [] => some acc
  | c :: cs =>
    match digit c with
    | some d => readDigits base digit (acc * base + d) cs
    | none => none

/-- An unsigned decimal numeral of at least one digit. -/
def readDec (cs : List Char) : Option Nat :=
  if cs.isEmpty then none else readDigits 10 decDigit 0 cs

/-- `0x` and at least one hexadecimal digit. -/
def readHex : List Char → Option Nat
  | '0' :: 'x' :: c :: cs => readDigits 16 hexDigit 0 (c :: cs)
  | _ => none

/-- The sign of a literal and what follows it. -/
def readSign : List Char → Bool × List Char
  | '-' :: cs => (true, cs)
  | '+' :: cs => (false, cs)
  | cs => (false, cs)

/-- `n`, negated where the literal's sign says so. -/
def applySign (negative : Bool) (n : Nat) : Int := if negative then -(n : Int) else n

/-- A signed decimal (`tr`). -/
def readSigned (cs : List Char) : Option Int :=
  (readDec (readSign cs).2).map (applySign (readSign cs).1)

/-- `n / 10^k` semitones in units of `2^-16`; none where it is not an exact multiple (R73). -/
def exactUnits (n k : Nat) : Option Nat :=
  if n * 65536 % 10 ^ k = 0 then some (n * 65536 / 10 ^ k) else none

/-- A decimal number with an optional sign and fraction, in units of `2^-16` (R73). -/
def readDecimal (cs : List Char) : Option Int :=
  let body := (readSign cs).2
  let whole := body.takeWhile (· != '.')
  let units :=
    match body.dropWhile (· != '.') with
    | [] => (readDec whole).map (· * 65536)
    | _ :: frac =>
      (readDec whole).bind fun _ => (readDec frac).bind fun _ =>
        (readDec (whole ++ frac)).bind fun n => exactUnits n frac.length
  units.map (applySign (readSign cs).1)

/-- A `current` or `target` literal: a decimal number, or a raw word `#0x...` (R73). -/
def readFix : List Char → Option Int
  | '#' :: cs => (readHex cs).map fun n => (n : Int)
  | cs => readDecimal cs

/-- A `value` literal: a decimal number, or a raw 25-bit word `#0x...` read as two's complement (R67). -/
def readSFix : List Char → Option Int
  | '#' :: cs => (readHex cs).bind fun n => if n < 33554432 then some (BitVec.ofNat 25 n).toInt else none
  | cs => readDecimal cs

/-- One entry of a brace list. -/
def readBit : List Char → Option Bool
  | ['0'] => some false
  | ['1'] => some true
  | _ => none

/-- Every entry of a brace list. -/
def readBits : List (List Char) → Option (List Bool)
  | [] => some []
  | e :: es => (readBit e).bind fun b => (readBits es).map (b :: ·)

/-- A mask literal: a hexadecimal word, or a brace list of twelve bits with class 0 first (R66, R73). -/
def readMask (cs : List Char) : Option Nat :=
  match cs with
  | c :: rest =>
    if c == braceOpen then
      if rest.getLast? == some braceClose then
        (readBits (splitOperands false [] rest.dropLast)).bind fun bs =>
          if bs.length = 12 then some (natOfBits bs) else none
      else none
    else readHex cs
  | [] => none

/-- A button literal: `0` or `P` pressed, `1` or `R` released (R73). -/
def readBtn : List Char → Option Level
  | ['0'] => some .pressed
  | ['P'] => some .pressed
  | ['1'] => some .released
  | ['R'] => some .released
  | _ => none

/-- The statement of a mnemonic and its operands, in the order of R73 and R74. -/
def readStatement (mnemonic : List Char) (operands : List (List Char)) : Option AsmLine :=
  match mnemonic, operands with
  | ['N', 'O', 'P'], [] => some .nop
  | ['Q', 'N', 'T'], [value, mask] =>
    (readSFix value).bind fun v => (readMask mask).map fun m => .qnt v m
  | ['G', 'L', 'D'], [current, target, ctl] =>
    (readFix current).bind fun u => (readFix target).bind fun t => (readDec ctl).map fun c => .gld u t c
  | ['B', 'Y', 'P'], [btn, now] =>
    (readBtn btn).bind fun b => (readDec now).map fun n => .byp b n
  | ['C', 'H', 'U'], [ch, value, mask, tr, ctl] =>
    (readDec ch).bind fun h => (readSFix value).bind fun v => (readMask mask).bind fun m =>
      (readSigned tr).bind fun r => (readDec ctl).map fun c => .chu h v m r c
  | ['T', 'I', 'C', 'K'], [btn, now, mask, tr, ctl, value0, value1] =>
    (readBtn btn).bind fun b => (readDec now).bind fun n => (readMask mask).bind fun m =>
      (readSigned tr).bind fun r => (readDec ctl).bind fun c => (readSFix value0).bind fun v0 =>
        (readSFix value1).map fun v1 => .tick b n m r c v0 v1
  | _, _ => none

/-- The words of one line; a comment runs from `;` to its end, and a line with nothing else has no words.
None where the line is no statement of R73. -/
def assembleLine (line : List Char) : Option (List Word) :=
  let text := trim (line.takeWhile (· != ';'))
  if text.isEmpty then some []
  else
    let mnemonic := text.takeWhile (!isBlank ·)
    let rest := trim (text.dropWhile (!isBlank ·))
    (readStatement mnemonic (if rest.isEmpty then [] else splitOperands false [] rest)).bind assemble

end Sys2Proof.Machine
end

