-- ==== Sys2Proof/Machine/Port.lean ====
section
/-! DEFINITION. The command port, clock edge by clock edge (30_encoding.md rules R55, R56,
70_reset_and_hazards.md rules R215, R217, R226). This layer stands beside `step`, which is the machine of
accepted commands that R56 asks a model for; it shows what the handshake adds to it. How many cycles a
command takes is the free value `Config.extraCycles` (log entry 5). -/

namespace Sys2Proof.Machine

/-- The input pins, as sampled at a rising edge of `clk` (R55). -/
structure Pins where
  rst : Bool
  cmdValid : Bool
  cmd : Word
  deriving DecidableEq, Repr

/-- The block behind its port. -/
structure PortState where
  /-- Configuration, registers, and the result on the port in this cycle; `core.input` is not used here,
  the pins bring the commands. -/
  core : State
  /-- The accepted command in progress and the edges it still needs beyond the next one. -/
  busy : Option (Word × Nat)
  /-- How many commands were accepted: the argument of the free value `Config.extraCycles`. The model's
  own counter, no register of the block. -/
  count : Nat
  deriving DecidableEq, Repr

/-- `cmd_ready`: low while reset is asserted (R215) and while a command is in progress (R56). It follows
`rst` within the cycle (log entry 6). -/
def PortState.cmdReady (p : PortState) (pins : Pins) : Bool := !pins.rst && p.busy.isNone

/-- `res_valid` (R56). It does not follow `rst` within the cycle, as `cmd_ready` does: a result presented in
the cycle in which `rst` rises stays on the port until the edge, and is low after it (log entry 13). -/
def PortState.resValid (p : PortState) : Bool := p.core.res.isSome

/-- A command is accepted at an edge at which `rst = 0`, `cmd_valid = 1` and `cmd_ready = 1` (R56). -/
def PortState.accepts (p : PortState) (pins : Pins) : Bool :=
  !pins.rst && pins.cmdValid && p.cmdReady pins

/-- One rising edge of `clk`. Reset wins and abandons a command in progress (R215, R217). A command in
progress ends by presenting its result and its new state in one and the same cycle (R56). -/
def clockEdge (p : PortState) (pins : Pins) : PortState :=
  if pins.rst then { p with core := p.core.applyReset, busy := none }
  else
    match p.busy with
    | some (w, 0) => { p with core := afterInstr (decode w) p.core, busy := none }
    | some (w, n + 1) => { p with core := p.core.clearResult, busy := some (w, n) }
    | none =>
      if pins.cmdValid then
        { core := p.core.clearResult, busy := some (pins.cmd, Config.extraCycles p.count),
          count := p.count + 1 }
      else { p with core := p.core.clearResult }

/-- The block after a sequence of edges. -/
def runEdges : List Pins → PortState → PortState
  | [], p => p
  | x :: xs, p => runEdges xs (clockEdge p x)

/-- The words accepted along a sequence of edges, in order. -/
def acceptedWords : List Pins → PortState → List Word
  | [], _ => []
  | x :: xs, p => (if p.accepts x then [x.cmd] else []) ++ acceptedWords xs (clockEdge p x)

/-- The results presented along a sequence of edges: one for each edge after which `res_valid = 1`. -/
def presentedResults : List Pins → PortState → List Result
  | [], _ => []
  | x :: xs, p => (clockEdge p x).core.res.toList ++ presentedResults xs (clockEdge p x)

end Sys2Proof.Machine
end

