-- ==== Sys2Proof/Safety.lean ====
section
/-! DEFINITION. The terms claims use: a command that completes, the range invariant of 10_state.md rule
R26, the commands that write no register (70_reset_and_hazards.md rule R227), and what the driver owes
the block (rules R166, R220, R222). -/

namespace Sys2Proof.Machine

/-- The step or command answered a next state: the only safe outcome, and the only one R185 leaves. -/
def Completes (o : Host.Outcome State Fault Refusal) : Prop := ∃ t, o = .next t

/-- R26: every target is at most `MAX_SEMITONES` and every current value at most
`toFix(MAX_SEMITONES)`. -/
abbrev Regs.InRange (cfg : Cfg) (r : Regs) : Prop :=
  ∀ ch ∈ [Chan.ch0, Chan.ch1],
    (r.tgt ch).toNat ≤ cfg.maxSemitones.val ∧ (r.cur ch).toNat ≤ cfg.maxSemitones.val * 65536

/-- R26 of a state, under the state's own configuration. -/
abbrev State.InRange (s : State) : Prop := s.regs.InRange s.cfg

/-- The commands that can write a register (R34, R227). -/
def writesRegisters : Instr → Bool
  | .nop => false
  | .qnt _ _ => false
  | .gld _ _ _ => false
  | .byp _ _ => true
  | .chu _ _ _ _ _ => true
  | .rsv5 => false
  | .rsv6 => false
  | .rsv7 => false

/-- The driver issues a `BYP` with the button released (R129). -/
def isRelease : Instr → Bool
  | .byp .released _ => true
  | .byp .pressed _ => false
  | .nop => false
  | .qnt _ _ => false
  | .gld _ _ _ => false
  | .chu _ _ _ _ _ => false
  | .rsv5 => false
  | .rsv6 => false
  | .rsv7 => false

/-- The command is a `BYP` whose press is accepted in this state (R122). -/
def acceptsPress (s : State) : Instr → Bool
  | .byp btn now => fires s.cfg s.regs btn now
  | .nop => false
  | .qnt _ _ => false
  | .gld _ _ _ => false
  | .chu _ _ _ _ _ => false
  | .rsv5 => false
  | .rsv6 => false
  | .rsv7 => false

/-- No `BYP` of the run from `s` is accepted. It may hold presses: of a button held down, or inside the
lockout (R122, R129). -/
def noPressAccepted : List Instr → State → Bool
  | [], _ => true
  | i :: is, s => !acceptsPress s i && noPressAccepted is (afterInstr i s)

/-- The time stamp a command carries, if it is a `BYP`. -/
def stampOf : Instr → Option Time
  | .byp _ now => some now
  | .nop => none
  | .qnt _ _ => none
  | .gld _ _ _ => none
  | .chu _ _ _ _ _ => none
  | .rsv5 => none
  | .rsv6 => none
  | .rsv7 => none

/-- Every `BYP` of the list comes no more than `DEBOUNCE_MS` after the time `t` (R130). -/
abbrev WithinLockout (cfg : Cfg) (t : Time) (is : List Instr) : Prop :=
  ∀ i ∈ is, ∀ now, stampOf i = some now → (elapsed now t).toNat ≤ cfg.debounceMs.val

/-- The tick order the driver owes the block (R166, R220): apart from commands that write no register,
the list is a sequence of `TICK` expansions. -/
def FollowsTicks (is : List Instr) (ks : List Tick) : Prop :=
  is.filter writesRegisters = ks.flatMap Tick.expand

end Sys2Proof.Machine
end

