-- ==== Sys2Proof/Certificates/Slice0/Obligations.lean ====
section
/-! DEFINITION. What the provers are asked to prove, each statement naming the rule it comes from. Every
statement holds for every configuration of 00_scope.md rule R10, since the configuration is part of the
state, but where a rule itself speaks of the reference configuration `REF`. -/

open Sys2Proof Sys2Proof.Machine

/-! ## Reset, steps and runs -/

/-- R32: the registers after reset, for every configuration the block is built with. -/
def Obligations.ResetLeavesTheListedRegisters : Prop :=
  (∀ cfg : Cfg, (State.resetWith cfg).cfg = cfg ∧
    (State.resetWith cfg).regs.cur .ch0 = 0 ∧ (State.resetWith cfg).regs.cur .ch1 = 0 ∧
    (State.resetWith cfg).regs.tgt .ch0 = 0 ∧ (State.resetWith cfg).regs.tgt .ch1 = 0 ∧
    (State.resetWith cfg).regs.byp = false ∧ (State.resetWith cfg).regs.lvl = .released ∧
    (State.resetWith cfg).regs.tacc = 0) ∧
  State.reset.regs = (State.resetWith State.reset.cfg).regs

/-- R215, R216, R217: reset among the driver's inputs replaces the registers and keeps the configuration
and the inputs still to come. That inputs stand in a list is the model's choice (log entry 2). -/
def Obligations.ResetInputReplacesTheRegisters : Prop :=
  ∀ (s : State) (rest : List Input), s.input = .reset :: rest →
    ∃ t, step s = .next t ∧ t.regs = (State.resetWith s.cfg).regs ∧ t.cfg = s.cfg ∧ t.input = rest ∧
      t.res = none

/-- R51, R56: with a command word next, the step consumes the word and is the meaning of the command
decoded from it. There is no program counter to move (R27). The input list is log entry 2. -/
def Obligations.StepRunsTheNextCommand : Prop :=
  ∀ (s : State) (w : Word) (rest : List Input), s.input = .command w :: rest →
    step s = exec (decode w) { s with input := rest }

/-- R34, R199: with nothing presented the block idles and no register changes. That a step without a
command is taken at all is the model's choice (log entry 4). -/
def Obligations.StepWithoutInputChangesNoRegister : Prop :=
  ∀ s : State, s.input = [] →
    ∃ t, step s = .next t ∧ t.regs = s.regs ∧ t.cfg = s.cfg ∧ t.input = [] ∧ t.res = none

/-- R185: the only outcome of any command word, and of any command, is a next state and a result. -/
def Obligations.EveryCommandCompletes : Prop :=
  (∀ (w : Word) (s : State), ∃ t r, exec (decode w) s = .next t ∧ t.res = some r) ∧
    ∀ (i : Instr) (s : State), Completes (exec i s)

/-- R48 (a), R56, R173: as many steps of the machine as the driver presents words run exactly those
commands in order. The input list is log entry 2. -/
def Obligations.RunExecutesThePresentedWordsInOrder : Prop :=
  ∀ (ws : List Word) (rest : List Input) (s : State), s.input = ws.map .command ++ rest →
    ∃ t : State, Host.Core.run core ws.length s = .next t ∧ t.regs = (observe ws s).regs ∧ t.cfg = s.cfg ∧
      t.input = rest ∧ (observe ws s).results.length = ws.length ∧
      (ws ≠ [] → t.res = (observe ws s).results.getLast?)

/-! ## Encoding -/

/-- R57 to R62: no operand bit is lost between the assembler's word and the decoder. -/
def Obligations.DecodeOfEncodeIsTheInstruction : Prop :=
  ∀ i : Instr, i.wf = true → decode (encode i) = i

/-- R64: the other direction. The assembler's word of what a word decodes to is that word with its ignored
bits zero. -/
def Obligations.EncodeOfDecodeClearsTheIgnoredBits : Prop :=
  ∀ w : Word, encode (decode w) = w &&& (decode w).usedBits

/-- R64: two words that agree on the bits the format does not mark ignored are the same command, hence have
the same effect, and the assembler writes the ignored bits as zero. -/
def Obligations.IgnoredBitsDoNotAffectDecoding : Prop :=
  (∀ w w' : Word, w &&& (decode w).usedBits = w' &&& (decode w).usedBits →
    decode w' = decode w ∧ ∀ s : State, exec (decode w') s = exec (decode w) s) ∧
  ∀ i : Instr, encode i &&& ~~~i.usedBits = 0

/-- R63: match and mask. The command's opcode is the word's top three bits, and every opcode is taken. -/
def Obligations.OpcodeIsTheTopThreeBits : Prop :=
  (∀ w : Word, (decode w).opcode = w.extractLsb' 61 3 ∧
    w &&& 0xE000000000000000#64 = (decode w).opcode.setWidth 64 <<< 61) ∧
  (∀ w : Word, (w &&& 0xE000000000000000#64 = 0x0000000000000000#64 ↔ decode w = .nop) ∧
    (w &&& 0xE000000000000000#64 = 0x2000000000000000#64 ↔ ∃ v m, decode w = .qnt v m) ∧
    (w &&& 0xE000000000000000#64 = 0x4000000000000000#64 ↔ ∃ u t c, decode w = .gld u t c) ∧
    (w &&& 0xE000000000000000#64 = 0x6000000000000000#64 ↔ ∃ b n, decode w = .byp b n) ∧
    (w &&& 0xE000000000000000#64 = 0x8000000000000000#64 ↔ ∃ h v m r c, decode w = .chu h v m r c) ∧
    (w &&& 0xE000000000000000#64 = 0xA000000000000000#64 ↔ decode w = .rsv5) ∧
    (w &&& 0xE000000000000000#64 = 0xC000000000000000#64 ↔ decode w = .rsv6) ∧
    (w &&& 0xE000000000000000#64 = 0xE000000000000000#64 ↔ decode w = .rsv7))

/-- R75, which the spec marks as derived from R57 to R62: the worked encodings, read by the decoder and
written by the encoder. -/
def Obligations.WorkedEncodingsDecode : Prop :=
  decode 0x356A000000010000#64 = .qnt 0x0010000#25 0xAB5#12 ∧
  encode (.qnt 0x0010000#25 0xAB5#12) = 0x356A000000010000#64 ∧
  decode 0x5FF81400000A0000#64 = .gld 0x0A0000#24 0x140000#24 1023#10 ∧
  encode (.gld 0x0A0000#24 0x140000#24 1023#10) = 0x5FF81400000A0000#64 ∧
  decode 0x6000000000000064#64 = .byp .pressed 100#32 ∧
  encode (.byp .pressed 100#32) = 0x6000000000000064#64 ∧
  decode 0x60000001000000C8#64 = .byp .released 200#32 ∧
  encode (.byp .released 200#32) = 0x60000001000000C8#64 ∧
  decode 0x94A9000300060000#64 = .chu .ch1 0x0060000#25 0x4A9#12 12#8 0#10 ∧
  encode (.chu .ch1 0x0060000#25 0x4A9#12 12#8 0#10) = 0x94A9000300060000#64

/-- R66, R67, R70: the operand encodings the rules give as examples. -/
def Obligations.OperandEncodingExamples : Prop :=
  Scale.major = 0xAB5#12 ∧ Scale.pentatonicMinor = 0x4A9#12 ∧
  (∀ bs : List Bool, bs.length = 12 → ∀ i : Nat, hasClass (maskOfList bs) i = bs.getD i false) ∧
  valueOf 0x0010000#25 = 65536 ∧ valueOf 0x0018000#25 = 98304 ∧ valueOf 0x03C0000#25 = 3932160 ∧
  valueOf 0x1FF8000#25 = -32768 ∧ valueOf 0x1FF0000#25 = -65536 ∧
  (∀ v : SFix, -16777216 ≤ valueOf v ∧ valueOf v ≤ 16777215 ∧ (valueOf v < 0 ↔ v.getLsbD 24 = true)) ∧
  transposeOf 0x00#8 = 0 ∧ transposeOf 0x0C#8 = 12 ∧ transposeOf 0xF4#8 = -12 ∧ transposeOf 0x7F#8 = 127 ∧
  transposeOf 0x80#8 = -128

/-- R73, R74: a statement assembles exactly when its operands are in range, to the words of the commands it
stands for with every ignored bit zero, and the operands keep their values. -/
def Obligations.AssemblerKeepsEveryOperand : Prop :=
  ∀ l : AsmLine, (l.wf = false → assemble l = none) ∧
    (l.wf = true → ∃ ws, assemble l = some ws ∧ ws.map decode = expandLine l ∧
      (∀ w ∈ ws, w &&& (decode w).usedBits = w) ∧
      match l with
      | .nop => expandLine l = [.nop]
      | .qnt value mask => ∃ v m, expandLine l = [.qnt v m] ∧ v.toInt = value ∧ m.toNat = mask
      | .gld current target ctl => ∃ u t c, expandLine l = [.gld u t c] ∧ (u.toNat : Int) = current ∧
          (t.toNat : Int) = target ∧ c.toNat = ctl
      | .byp btn now => ∃ n, expandLine l = [.byp btn n] ∧ n.toNat = now
      | .chu ch value mask tr ctl => ∃ h v m r c, expandLine l = [.chu h v m r c] ∧ h.toBit.toNat = ch ∧
          v.toInt = value ∧ m.toNat = mask ∧ r.toInt = tr ∧ c.toNat = ctl
      | .tick btn now mask tr ctl value0 value1 => ∃ n m r c v0 v1,
          expandLine l = [.byp btn n, .chu .ch0 v0 m r c, .chu .ch1 v1 m r c] ∧ n.toNat = now ∧
          m.toNat = mask ∧ r.toInt = tr ∧ c.toNat = ctl ∧ v0.toInt = value0 ∧ v1.toInt = value1)

/-! ## Results -/

/-- R72: the places of the flags and the result of every command. -/
def Obligations.EveryCommandReturnsItsTabledResult : Prop :=
  (∀ f : ResFlags, f.toBits.getLsbD 0 = f.miss ∧ f.toBits.getLsbD 1 = f.tog ∧ f.toBits.getLsbD 2 = f.skip ∧
    f.toBits.getLsbD 3 = f.ill) ∧
  ∀ (i : Instr) (s : State), ∃ t r, exec i s = .next t ∧ t.res = some r ∧
    match i with
    | .nop => r = ⟨0, ⟨false, false, false, false⟩⟩
    | .qnt value mask =>
      r.val.extractLsb' 16 8 = (quantize s.cfg value mask).1 ∧ r.val.extractLsb' 0 16 = 0 ∧
      r.val = toFix (quantize s.cfg value mask).1 ∧
      r.flags = ⟨false, false, false, (quantize s.cfg value mask).2⟩
    | .gld current target ctl =>
      r.val = glide s.cfg current target ctl ∧ r.flags = ⟨false, false, false, false⟩
    | .byp _ _ =>
      r.val = (BitVec.ofBool t.regs.byp).setWidth 24 ∧
      r.flags = ⟨false, false, decide (t.regs.byp ≠ s.regs.byp), false⟩
    | .chu ch value mask _ _ =>
      r.val = t.regs.cur ch ∧
      r.flags = ⟨false, s.regs.byp, false, (quantize s.cfg value mask).2 && !s.regs.byp⟩
    | .rsv5 => r = ⟨0, ⟨true, false, false, false⟩⟩
    | .rsv6 => r = ⟨0, ⟨true, false, false, false⟩⟩
    | .rsv7 => r = ⟨0, ⟨true, false, false, false⟩⟩

/-! ## `NOP` and the reserved opcodes -/

/-- R155: which words are a `NOP`, and that it changes nothing and returns zero. -/
def Obligations.NopChangesNothing : Prop :=
  (∀ w : Word, w.extractLsb' 61 3 = 0b000#3 → decode w = .nop) ∧
  decode 0x0000000000000000#64 = .nop ∧ decode 0x1FFFFFFFFFFFFFFF#64 = .nop ∧
  ∀ s : State, ∃ t, exec .nop s = .next t ∧ t.regs = s.regs ∧ t.cfg = s.cfg ∧ t.input = s.input ∧
    t.res = some ⟨0, ⟨false, false, false, false⟩⟩

/-- R156: the three reserved opcodes are defined commands that change nothing and report `ill`. -/
def Obligations.ReservedOpcodesReportIll : Prop :=
  (∀ w : Word, (w.extractLsb' 61 3 = 0b101#3 → decode w = .rsv5) ∧
    (w.extractLsb' 61 3 = 0b110#3 → decode w = .rsv6) ∧ (w.extractLsb' 61 3 = 0b111#3 → decode w = .rsv7)) ∧
  decode 0xA000000000000000#64 = .rsv5 ∧ decode 0xC000000000000001#64 = .rsv6 ∧
  decode 0xFFFFFFFFFFFFFFFF#64 = .rsv7 ∧
  ∀ i ∈ [Instr.rsv5, .rsv6, .rsv7], ∀ s : State, ∃ t, exec i s = .next t ∧ t.regs = s.regs ∧
    t.cfg = s.cfg ∧ t.input = s.input ∧ t.res = some ⟨0, ⟨true, false, false, false⟩⟩

/-! ## The quantizer and `QNT` -/

/-- R81: rounding half away from zero, against the real value, with the rule's range and examples. -/
def Obligations.RoundingIsHalfAwayFromZero : Prop :=
  (∀ v : SFix, -256 ≤ rhaz v.toInt ∧ rhaz v.toInt ≤ 256 ∧
    (0 ≤ v.toInt → rhaz v.toInt = ⌊realOf v.toInt + 1 / 2⌋) ∧
    (v.toInt < 0 → rhaz v.toInt = -⌊|realOf v.toInt| + 1 / 2⌋)) ∧
  rhaz 32768 = 1 ∧ rhaz 98304 = 2 ∧ rhaz 163840 = 3 ∧ rhaz (-32768) = -1 ∧ rhaz (-98304) = -2 ∧
  rhaz (0x0017FFF#25).toInt = 1

/-- R82: the candidate is the rounded value clamped into `[0, MAX_SEMITONES]`. -/
def Obligations.CandidateIsTheClampedRounding : Prop :=
  ∀ (cfg : Cfg) (v : SFix),
    candidate cfg v = max 0 (min (rhaz v.toInt) (cfg.maxSemitones.val : Int)) ∧
    (v.toInt < 0 ∨ rhaz v.toInt = 0 → candidate cfg v = 0) ∧
    ((cfg.maxSemitones.val : Int) ≤ rhaz v.toInt → candidate cfg v = cfg.maxSemitones.val)

/-- R90, which the spec marks as derived from R81 and R82: rounding half up would give the same candidate
for every input. -/
def Obligations.RoundingModeCannotBeObserved : Prop :=
  ∀ (cfg : Cfg) (v : SFix),
    (v.toInt < 0 → rhaz v.toInt ≤ 0 ∧ candidate cfg v = 0) ∧
    candidate cfg v = clamp ⌊realOf v.toInt + 1 / 2⌋ 0 cfg.maxSemitones.val ∧
    (0 ≤ v.toInt → rhaz v.toInt = ⌊realOf v.toInt + 1 / 2⌋)

/-- R83, R84: the first hit in order of radius, below before above, both conditions of `ok` required; the
candidate with `miss` where no radius up to 12 hits. -/
def Obligations.SearchReturnsTheFirstHitBelowBeforeAbove : Prop :=
  ∀ (cfg : Cfg) (v : SFix) (m : Mask),
    let c := candidate cfg v
    let ok : Int → Prop := fun s =>
      0 ≤ s ∧ s ≤ (cfg.maxSemitones.val : Int) ∧ m.getLsbD (s % 12).toNat = true
    (∀ d : Nat, d ≤ 12 → (∀ e : Nat, e < d → ¬ ok (c - e) ∧ ¬ ok (c + e)) →
      (ok (c - d) → ((quantize cfg v m).1.toNat : Int) = c - d ∧ (quantize cfg v m).2 = false) ∧
      (¬ ok (c - d) → ok (c + d) →
        ((quantize cfg v m).1.toNat : Int) = c + d ∧ (quantize cfg v m).2 = false)) ∧
    ((∀ d : Nat, d ≤ 12 → ¬ ok (c - d) ∧ ¬ ok (c + d)) →
      ((quantize cfg v m).1.toNat : Int) = c ∧ (quantize cfg v m).2 = true ∧
      0 ≤ c ∧ c ≤ (cfg.maxSemitones.val : Int) ∧ m.getLsbD (c % 12).toNat = false)

/-- R87: the source's testable properties of `quantize`, each with the hypothesis the rule gives it. The
scenarios of (d) name no range; they are stated for every range that holds their input. -/
def Obligations.QuantizerPropertiesOfTheSource : Prop :=
  ∀ (cfg : Cfg) (v : SFix) (m : Mask),
    let q : Int := (quantize cfg v m).1.toNat
    let r : Int := rhaz v.toInt
    let top : Int := cfg.maxSemitones.val
    let inMask : Int → Prop := fun s => m.getLsbD (s % 12).toNat = true
    (q ≤ top ∧ ((quantize cfg v m).2 = false ↔ inMask q) ∧ (m = 0 → ¬ inMask q)) ∧
    (0 ≤ r → r ≤ top → inMask r → q = r) ∧
    (∀ d : Nat, d ≤ 12 → 0 ≤ r → r ≤ top →
      (∀ e : Nat, e < d → ¬ (0 ≤ r - e ∧ inMask (r - e)) ∧ ¬ (r + e ≤ top ∧ inMask (r + e))) →
      inMask (r - d) → inMask (r + d) → r + d ≤ top →
      (0 ≤ r - d → q = r - d) ∧ (r - d < 0 → q = r + d)) ∧
    (1 ≤ top → quantize cfg 0x0010000#25 0xAB5#12 = (0, false)) ∧
    (6 ≤ top → quantize cfg 0x0060000#25 0x4A9#12 = (5, false))

/-- R88, which the spec marks as derived from R82 and R83: when the fallback cannot happen, when it always
does, and the rule's three instances. -/
def Obligations.FallbackIsUnreachableForWellFormedScales : Prop :=
  (∀ (cfg : Cfg) (v : SFix) (m : Mask),
    (m.rooted = true → (quantize cfg v m).2 = false) ∧
    (m.wf = true → cfg.wf = true → (quantize cfg v m).2 = false) ∧
    (m = 0 → (quantize cfg v m).2 = true)) ∧
  (∀ cfg : Cfg, (cfg.maxSemitones = 5 → quantize cfg 0 0x080#12 = (0, true)) ∧
    (cfg.maxSemitones = 10 → quantize cfg 0 0x800#12 = (0, true)) ∧
    (cfg.maxSemitones = 11 → quantize cfg 0 0x800#12 = (11, false)))

/-- R91, with the bound of R89, which the spec marks as derived from R83: on a hit the result is an
in-scale value of the range nearest to the candidate, the lower of two at equal distance; a search that has
missed below radius 12 misses; and the distance is measured from the candidate, not from the input: 1.4 in
Major gives 0. -/
def Obligations.QuantizeReturnsTheNearestInScaleSemitone : Prop :=
  ∀ (cfg : Cfg) (v : SFix) (m : Mask),
    let q : Int := (quantize cfg v m).1.toNat
    let c := candidate cfg v
    let ok : Int → Prop := fun s =>
      0 ≤ s ∧ s ≤ (cfg.maxSemitones.val : Int) ∧ m.getLsbD (s % 12).toNat = true
    ((quantize cfg v m).2 = false →
      ok q ∧ (q - c).natAbs ≤ 11 ∧
      ∀ s : Int, ok s → (q - c).natAbs ≤ (s - c).natAbs ∧ ((q - c).natAbs = (s - c).natAbs → q ≤ s)) ∧
    ((∀ e : Nat, e < 12 → ¬ ok (c - e) ∧ ¬ ok (c + e)) → (quantize cfg v m).2 = true) ∧
    (2 ≤ (cfg.maxSemitones.val : Int) → quantize cfg 0x0016666#25 0xAB5#12 = (0, false))

/-- R86: the fields of the word, the result, the frame, the corner cases and the worked example. -/
def Obligations.QntReturnsTheQuantizedSemitone : Prop :=
  (∀ w : Word, w.extractLsb' 61 3 = 0b001#3 → decode w = .qnt (w.extractLsb' 0 25) (w.extractLsb' 49 12)) ∧
  (∀ (value : SFix) (mask : Mask) (s : State), ∃ t, exec (.qnt value mask) s = .next t ∧
    t.regs = s.regs ∧ t.cfg = s.cfg ∧ t.input = s.input ∧
    t.res = some ⟨toFix (quantize s.cfg value mask).1,
      ⟨false, false, false, (quantize s.cfg value mask).2⟩⟩) ∧
  (∀ cfg : Cfg, cfg.maxSemitones = 60 →
    (∀ value : SFix, value.toInt < 0 → candidate cfg value = 0) ∧
    candidate cfg 0x0C80000#25 = 60 ∧
    quantize cfg 0x03C0000#25 0x002#12 = (49, false) ∧ quantize cfg 0 0x800#12 = (11, false) ∧
    (∀ value : SFix, ((quantize cfg value 0x000#12).1.toNat : Int) = candidate cfg value ∧
      (quantize cfg value 0x000#12).2 = true) ∧
    (∀ value : SFix, ((quantize cfg value 0xFFF#12).1.toNat : Int) = candidate cfg value ∧
      (quantize cfg value 0xFFF#12).2 = false) ∧
    quantize cfg 0x0010000#25 0xAB5#12 = (0, false)) ∧
  decode 0x356A000000010000#64 = .qnt 0x0010000#25 0xAB5#12

/-! ## The glide filter and `GLD` -/

/-- R102: the step count, its ends, its direction, its range and its breakpoints; at `REF` the filter never
divides by 1. -/
def Obligations.StepCountIsTheLinearMap : Prop :=
  (∀ ctl : Ctl, steps ctl = 1 + 32 * ctl.toNat / 1023 ∧ 1 ≤ steps ctl ∧ steps ctl ≤ 33 ∧
    (ctl.toNat ≤ 1022 → steps ctl = 1 + ctl.toNat / 32) ∧
    (steps ctl = 1 ↔ ctl.toNat ≤ 31) ∧ (steps ctl = 33 ↔ ctl.toNat = 1023)) ∧
  steps 0 = 1 ∧ steps 1023 = 33 ∧ (∀ a b : Ctl, a.toNat ≤ b.toNat → steps a ≤ steps b) ∧
  ∀ ctl : Ctl, Cfg.ref.snapThreshold.val ≤ ctl.toNat → 2 ≤ steps ctl ∧ (ctl.toNat ≤ 63 → steps ctl = 2)

/-- R104: the division truncates toward zero, is symmetric, and is less than one unit from the real
quotient. -/
def Obligations.GlideDivisionTruncatesTowardZero : Prop :=
  (∀ (a : Int) (b : Nat), 1 ≤ b →
    (0 ≤ a → tdiv a b = ⌊(a : Rat) / b⌋) ∧ (a < 0 → tdiv a b = -⌊(-a : Rat) / b⌋) ∧
    tdiv (-a) b = -tdiv a b ∧ |(tdiv a b : Rat) - (a : Rat) / b| < 1) ∧
  tdiv 7 2 = 3 ∧ tdiv (-7) 2 = -3 ∧ tdiv (-5) 3 = -1 ∧ tdiv 32 33 = 0 ∧ tdiv (-32) 33 = 0

/-- R101, R103: the snap region returns the target bit for bit; outside it the update is the formula, with
no wrap. -/
def Obligations.GlideFollowsTheFormula : Prop :=
  ∀ (cfg : Cfg) (current target : Fix) (ctl : Ctl),
    (ctl.toNat < cfg.snapThreshold.val → glide cfg current target ctl = target) ∧
    (cfg.snapThreshold.val = 1024 → glide cfg current target ctl = target) ∧
    (cfg.snapThreshold.val ≤ ctl.toNat →
      ((glide cfg current target ctl).toNat : Int) =
        current.toNat + Int.tdiv ((target.toNat : Int) - current.toNat) (steps ctl))

/-- R105, which the spec marks as derived from R101, R103 and R104: the move is at most the distance and in
its direction, and the result lies between the operands. -/
def Obligations.GlideStaysBetweenCurrentAndTarget : Prop :=
  ∀ (cfg : Cfg) (current target : Fix) (ctl : Ctl),
    (glideDelta current target ctl).natAbs ≤ ((target.toNat : Int) - current.toNat).natAbs ∧
    (glideDelta current target ctl = 0 ∨
      (glideDelta current target ctl).sign = ((target.toNat : Int) - current.toNat).sign) ∧
    min current.toNat target.toNat ≤ (glide cfg current target ctl).toNat ∧
    (glide cfg current target ctl).toNat ≤ max current.toNat target.toNat ∧
    (current.toNat ≤ cfg.maxSemitones.val * 65536 → target.toNat ≤ cfg.maxSemitones.val * 65536 →
      (glide cfg current target ctl).toNat ≤ cfg.maxSemitones.val * 65536)

/-- R107, which the spec marks as derived from R103 and R104: the new distance, that it never grows, that
it shrinks outside the stall band, and that the filter never overshoots. -/
def Obligations.GlideApproachesWithoutOvershoot : Prop :=
  ∀ (cfg : Cfg) (current target : Fix) (ctl : Ctl), cfg.snapThreshold.val ≤ ctl.toNat →
    let before : Int := (target.toNat : Int) - current.toNat
    let after : Int := (target.toNat : Int) - (glide cfg current target ctl).toNat
    after.natAbs = before.natAbs - before.natAbs / steps ctl ∧ after.natAbs ≤ before.natAbs ∧
    (steps ctl ≤ before.natAbs → after.natAbs < before.natAbs) ∧ (after = 0 ∨ after.sign = before.sign)

/-- R108, which the spec marks as derived from R104: inside the stall band the filter does not move; from
any current it is there after finitely many calls and stays where it is. -/
def Obligations.RepeatedGlideSettlesInTheStallBand : Prop :=
  ∀ (cfg : Cfg) (current target : Fix) (ctl : Ctl), cfg.snapThreshold.val ≤ ctl.toNat →
    (((target.toNat : Int) - current.toNat).natAbs < steps ctl →
      ∀ n : Nat, glideTimes cfg target ctl n current = current) ∧
    ∃ n : Nat, ((target.toNat : Int) - (glideTimes cfg target ctl n current).toNat).natAbs < steps ctl ∧
      ((target.toNat : Int) - (glideTimes cfg target ctl n current).toNat).natAbs ≤ 32 ∧
      ∀ k : Nat, n ≤ k → glideTimes cfg target ctl k current = glideTimes cfg target ctl n current

/-- R109, which the spec marks as derived from R101 to R104: exactly when one call arrives at the target.
-/
def Obligations.GlideArrivesExactlyInTheListedCases : Prop :=
  ∀ (cfg : Cfg) (current target : Fix) (ctl : Ctl),
    glide cfg current target ctl = target ↔
      ctl.toNat < cfg.snapThreshold.val ∨ steps ctl = 1 ∨ current = target

/-- R106: the fields of the word, the result, the frame, the corner cases at `REF` and the worked example.
-/
def Obligations.GldReturnsTheGlidedValue : Prop :=
  (∀ w : Word, w.extractLsb' 61 3 = 0b010#3 →
    decode w = .gld (w.extractLsb' 0 24) (w.extractLsb' 24 24) (w.extractLsb' 51 10)) ∧
  (∀ (current target : Fix) (ctl : Ctl) (s : State), ∃ t, exec (.gld current target ctl) s = .next t ∧
    t.regs = s.regs ∧ t.cfg = s.cfg ∧ t.input = s.input ∧
    t.res = some ⟨glide s.cfg current target ctl, ⟨false, false, false, false⟩⟩) ∧
  (∀ (target : Fix) (ctl : Ctl), glide Cfg.ref target target ctl = target) ∧
  (∀ current target : Fix, glide Cfg.ref current target 39#10 = target ∧
    ((glide Cfg.ref current target 40#10).toNat : Int) =
      current.toNat + Int.tdiv ((target.toNat : Int) - current.toNat) 2 ∧
    (((target.toNat : Int) - current.toNat).natAbs ≤ 32 → glide Cfg.ref current target 1023#10 = current)) ∧
  glide Cfg.ref 0x000000#24 0xFFFFFF#24 1023#10 = 0x07C1F0#24 ∧
  glide Cfg.ref 0xFFFFFF#24 0x000000#24 1023#10 = 0xF83E0F#24 ∧
  decode 0x5FF81400000A0000#64 = .gld 0x0A0000#24 0x140000#24 1023#10 ∧
  glide Cfg.ref 0x0A0000#24 0x140000#24 1023#10 = 0x0A4D93#24

/-! ## The bypass controller and `BYP` -/

/-- R121: the elapsed time is the difference modulo `2^32`, and it is the true one across a wrap of the
clock as long as less than `2^32` ms passed. -/
def Obligations.ElapsedTimeSurvivesAClockWrap : Prop :=
  (∀ now tacc : Time, ((elapsed now tacc).toNat : Int) = ((now.toNat : Int) - tacc.toNat) % 2 ^ 32) ∧
  ∀ t d : Nat, d < 2 ^ 32 → (elapsed (BitVec.ofNat 32 (t + d)) (BitVec.ofNat 32 t)).toNat = d

/-- R126: the fields of the word, every register after the command, the result, the corner cases at `REF`
and the worked example. `tgt`, the configuration and the inputs are never written. -/
def Obligations.BypStepsTheBypassController : Prop :=
  (∀ w : Word, w.extractLsb' 61 3 = 0b011#3 →
    decode w = .byp (if w.getLsbD 32 then .released else .pressed) (w.extractLsb' 0 32)) ∧
  (∀ (btn : Level) (now : Time) (s : State),
    let fire : Prop :=
      s.cfg.debounceMs.val < (now - s.regs.tacc).toNat ∧ btn = .pressed ∧ s.regs.lvl = .released
    ∃ t, exec (.byp btn now) s = .next t ∧ t.regs.lvl = btn ∧
      (fire → t.regs.byp = !s.regs.byp ∧ t.regs.tacc = now) ∧
      (¬ fire → t.regs.byp = s.regs.byp ∧ t.regs.tacc = s.regs.tacc) ∧
      (fire ∧ s.regs.byp = true → ∀ ch, t.regs.cur ch = toFix (s.regs.tgt ch)) ∧
      (¬ (fire ∧ s.regs.byp = true) → ∀ ch, t.regs.cur ch = s.regs.cur ch) ∧
      (∀ ch, t.regs.tgt ch = s.regs.tgt ch) ∧ t.cfg = s.cfg ∧ t.input = s.input ∧
      ∃ tog : Bool, (tog = true ↔ fire) ∧
        t.res = some ⟨(BitVec.ofBool t.regs.byp).setWidth 24, ⟨false, false, tog, false⟩⟩) ∧
  bypassStep Cfg.ref Regs.reset .pressed 50#32 = { Regs.reset with lvl := .pressed } ∧
  bypassStep Cfg.ref { Regs.reset with lvl := .pressed } .pressed 51#32 = { Regs.reset with lvl := .pressed } ∧
  bypassStep Cfg.ref Regs.reset .pressed 51#32 =
    { Regs.reset with byp := true, lvl := .pressed, tacc := 51#32 } ∧
  (∀ (r : Regs) (now : Time), fires Cfg.ref r .released now = false) ∧
  decode 0x6000000000000064#64 = .byp .pressed 100#32 ∧
  bypassStep Cfg.ref Regs.reset .pressed 100#32 =
    { Regs.reset with byp := true, lvl := .pressed, tacc := 100#32 }

/-- R127, which the spec marks as derived from R122 to R125: the transition table, row by row, over the old
level, the operand and whether the interval has passed. -/
def Obligations.BypassTransitionTable : Prop :=
  ∀ (btn : Level) (now : Time) (s : State), ∃ t, exec (.byp btn now) s = .next t ∧
    let isLate : Prop := s.cfg.debounceMs.val < (elapsed now s.regs.tacc).toNat
    (s.regs.lvl = .released → btn = .released → t.regs = s.regs) ∧
    (s.regs.lvl = .released → btn = .pressed → ¬ isLate → t.regs = { s.regs with lvl := .pressed }) ∧
    (s.regs.lvl = .released → btn = .pressed → isLate → s.regs.byp = true →
      t.regs = { s.regs with byp := false, tacc := now, lvl := .pressed,
                             cur0 := toFix s.regs.tgt0, cur1 := toFix s.regs.tgt1 }) ∧
    (s.regs.lvl = .released → btn = .pressed → isLate → s.regs.byp = false →
      t.regs = { s.regs with byp := true, tacc := now, lvl := .pressed }) ∧
    (s.regs.lvl = .pressed → btn = .pressed → t.regs = s.regs) ∧
    (s.regs.lvl = .pressed → btn = .released → t.regs = { s.regs with lvl := .released })

/-- R128: the conceptual phase `justToggled` is the lockout, in which no press can be accepted. -/
def Obligations.LockoutPhaseAcceptsNoPress : Prop :=
  ∀ (cfg : Cfg) (r : Regs) (btn : Level) (now : Time),
    (debouncePhase cfg r now = .justToggled ↔ (elapsed now r.tacc).toNat ≤ cfg.debounceMs.val) ∧
    (debouncePhase cfg r now = .justToggled → fires cfg r btn now = false) ∧
    (debouncePhase cfg r now = .idle → btn = .pressed → r.lvl = .released → fires cfg r btn now = true)

/-- R129, which the spec marks as derived from R122 and R125: a press that begins inside the lockout is
lost. It records the level without toggling, and from then on no run of commands toggles bypass until a
`BYP` sees the button released; a release and a new press after the lockout do toggle it. -/
def Obligations.PressInsideTheLockoutIsLost : Prop :=
  ∀ (s : State) (now : Time), (elapsed now s.regs.tacc).toNat ≤ s.cfg.debounceMs.val →
    ∃ t, exec (.byp .pressed now) s = .next t ∧ t.regs.byp = s.regs.byp ∧ t.regs.tacc = s.regs.tacc ∧
      t.regs.lvl = .pressed ∧
      (∀ is : List Instr, (∀ i ∈ is, isRelease i = false) →
        (runInstrs is t).regs.byp = s.regs.byp ∧ (runInstrs is t).regs.tacc = s.regs.tacc ∧
        (runInstrs is t).regs.lvl = .pressed) ∧
      ∀ n₁ n₂ : Time, s.cfg.debounceMs.val < (elapsed n₂ s.regs.tacc).toNat →
        (runInstrs [.byp .released n₁, .byp .pressed n₂] t).regs.byp = !s.regs.byp

/-- R130, whose interval the spec marks as derived from R122 and R123: after an accepted press at `now`, no
run of commands whose `BYP`s all come within `DEBOUNCE_MS` of it toggles bypass again, whatever edges it
presents; and the interval is not restarted. -/
def Obligations.EdgesWithinTheIntervalGiveOneToggle : Prop :=
  ∀ (s t : State) (now : Time), exec (.byp .pressed now) s = .next t → t.regs.byp ≠ s.regs.byp →
    ∀ is : List Instr, WithinLockout s.cfg now is →
      (runInstrs is t).regs.byp = t.regs.byp ∧ (runInstrs is t).regs.tacc = now

/-- R132, which the spec marks as derived from R122 and R32: the start-up lockout, and a button held from
reset onward. -/
def Obligations.StartUpLockoutAndHeldButton : Prop :=
  (∀ (cfg : Cfg) (is : List Instr), WithinLockout cfg 0 is →
    (runInstrs is (State.resetWith cfg)).regs.byp = false ∧
    (runInstrs is (State.resetWith cfg)).regs.tacc = 0) ∧
  ∀ (cfg : Cfg) (first : Time) (is : List Instr), (∀ i ∈ is, isRelease i = false) →
    ((runInstrs (.byp .pressed first :: is) (State.resetWith cfg)).regs.byp = true ↔
      cfg.debounceMs.val < first.toNat)

/-! ## The channel update and `CHU` -/

/-- R144: the fields of the word, every register after the command, the result and the frame in both modes,
the corner cases at `REF` and the worked example. -/
def Obligations.ChuUpdatesItsChannel : Prop :=
  (∀ w : Word, w.extractLsb' 61 3 = 0b100#3 →
    decode w = .chu (if w.getLsbD 60 then .ch1 else .ch0) (w.extractLsb' 0 25) (w.extractLsb' 48 12)
      (w.extractLsb' 30 8) (w.extractLsb' 38 10)) ∧
  (∀ (ch : Chan) (value : SFix) (mask : Mask) (tr : Tr) (ctl : Ctl) (s : State),
    ∃ t, exec (.chu ch value mask tr ctl) s = .next t ∧
      (∀ o, o ≠ ch → t.regs.cur o = s.regs.cur o ∧ t.regs.tgt o = s.regs.tgt o) ∧
      t.regs.byp = s.regs.byp ∧ t.regs.lvl = s.regs.lvl ∧ t.regs.tacc = s.regs.tacc ∧
      t.cfg = s.cfg ∧ t.input = s.input ∧
      (s.regs.byp = true → t.regs = s.regs ∧ t.res = some ⟨s.regs.cur ch, ⟨false, true, false, false⟩⟩) ∧
      (s.regs.byp = false →
        ((t.regs.tgt ch).toNat : Int) =
          clamp ((quantize s.cfg value mask).1.toNat + tr.toInt) 0 s.cfg.maxSemitones.val ∧
        t.regs.cur ch = glide s.cfg (s.regs.cur ch) (toFix (t.regs.tgt ch)) ctl ∧
        t.res = some ⟨t.regs.cur ch, ⟨false, false, false, (quantize s.cfg value mask).2⟩⟩)) ∧
  channelTarget Cfg.ref 0x03A0000#25 0xAB5#12 12#8 = 60#8 ∧
  channelTarget Cfg.ref 0x0010000#25 0xAB5#12 (-12#8) = 0#8 ∧
  (∀ (value : SFix) (mask : Mask), channelTarget Cfg.ref value mask 0x80#8 = 0#8 ∧
    channelTarget Cfg.ref value mask 0x7F#8 = 60#8) ∧
  (∀ (value : SFix) (tr : Tr), (quantize Cfg.ref value 0x000#12).2 = true ∧
    ((channelTarget Cfg.ref value 0x000#12 tr).toNat : Int) =
      clamp (candidate Cfg.ref value + tr.toInt) 0 60) ∧
  (∀ (old : Fix) (value : SFix) (mask : Mask) (tr : Tr) (ctl : Ctl), ctl.toNat < 40 →
    channelCurrent Cfg.ref old value mask tr ctl = toFix (channelTarget Cfg.ref value mask tr)) ∧
  decode 0x94A9000300060000#64 = .chu .ch1 0x0060000#25 0x4A9#12 12#8 0#10 ∧
  afterInstr (.chu .ch1 0x0060000#25 0x4A9#12 12#8 0#10) (State.resetWith Cfg.ref) =
    { State.resetWith Cfg.ref with
      regs := { Regs.reset with tgt1 := 17#8, cur1 := 0x110000#24 }
      res := some ⟨0x110000#24, ⟨false, false, false, false⟩⟩ }

/-- R146, which the spec marks as derived from R142: the stored target is in-scale after a hit when the
transpose is a multiple of 12 and the clamp does not move it, and need not be otherwise. -/
def Obligations.StoredTargetNeedNotBeInScale : Prop :=
  (∀ (cfg : Cfg) (value : SFix) (mask : Mask) (tr : Tr), (quantize cfg value mask).2 = false →
    12 ∣ tr.toInt → 0 ≤ ((quantize cfg value mask).1.toNat : Int) + tr.toInt →
    ((quantize cfg value mask).1.toNat : Int) + tr.toInt ≤ cfg.maxSemitones.val →
    inScale mask ((channelTarget cfg value mask tr).toNat : Int) = true) ∧
  (quantize Cfg.ref 0x0010000#25 0xAB5#12 = (0, false) ∧ channelTarget Cfg.ref 0x0010000#25 0xAB5#12 1#8 = 1#8 ∧
    inScale 0xAB5#12 1 = false) ∧
  (quantize Cfg.ref 0x03A0000#25 0x220#12 = (57, false) ∧
    channelTarget Cfg.ref 0x03A0000#25 0x220#12 12#8 = 60#8 ∧ inScale 0x220#12 60 = false)

/-- R141: while bypass is ON, any run of commands none of whose presses is accepted leaves both channels,
the flag and the time stamp as they are, whatever `CHU`s, held buttons and presses inside the lockout it
holds, and a `CHU` after it is skipped. -/
def Obligations.ChannelsFreezeUnderBypass : Prop :=
  ∀ (s : State) (is : List Instr), s.regs.byp = true → noPressAccepted is s = true →
    (∀ ch, (runInstrs is s).regs.cur ch = s.regs.cur ch ∧ (runInstrs is s).regs.tgt ch = s.regs.tgt ch) ∧
    (runInstrs is s).regs.byp = true ∧ (runInstrs is s).regs.tacc = s.regs.tacc ∧
    ∀ (ch : Chan) (value : SFix) (mask : Mask) (tr : Tr) (ctl : Ctl),
      (afterInstr (.chu ch value mask tr ctl) (runInstrs is s)).res =
        some ⟨s.regs.cur ch, ⟨false, true, false, false⟩⟩

/-- R147, which the spec marks as derived from R144: a `CHU` reads and writes nothing of the other channel,
and the two orders of two `CHU`s on different channels leave the same registers. -/
def Obligations.ChannelsAreIndependent : Prop :=
  (∀ (ch : Chan) (value : SFix) (mask : Mask) (tr : Tr) (ctl : Ctl) (s s' : State), s.cfg = s'.cfg →
    s.regs.byp = s'.regs.byp → s.regs.cur ch = s'.regs.cur ch → s.regs.tgt ch = s'.regs.tgt ch →
    (afterInstr (.chu ch value mask tr ctl) s).regs.cur ch =
      (afterInstr (.chu ch value mask tr ctl) s').regs.cur ch ∧
    (afterInstr (.chu ch value mask tr ctl) s).regs.tgt ch =
      (afterInstr (.chu ch value mask tr ctl) s').regs.tgt ch ∧
    (afterInstr (.chu ch value mask tr ctl) s).res = (afterInstr (.chu ch value mask tr ctl) s').res ∧
    ∀ o, o ≠ ch → (afterInstr (.chu ch value mask tr ctl) s).regs.cur o = s.regs.cur o ∧
      (afterInstr (.chu ch value mask tr ctl) s).regs.tgt o = s.regs.tgt o) ∧
  ∀ (v0 v1 : SFix) (m0 m1 : Mask) (r0 r1 : Tr) (c0 c1 : Ctl) (s : State),
    (runInstrs [.chu .ch0 v0 m0 r0 c0, .chu .ch1 v1 m1 r1 c1] s).regs =
      (runInstrs [.chu .ch1 v1 m1 r1 c1, .chu .ch0 v0 m0 r0 c0] s).regs

/-! ## Ticks -/

/-- R165: `TICK` is the composition of its three commands, in order, with their three results. -/
def Obligations.TickIsItsThreeCommands : Prop :=
  ∀ (k : Tick) (s : State),
    runInstrs k.expand s =
      afterInstr (.chu .ch1 k.value1 k.mask k.tr k.ctl)
        (afterInstr (.chu .ch0 k.value0 k.mask k.tr k.ctl) (afterInstr (.byp k.btn k.now) s)) ∧
    (resultsOf k.expand s).length = 3 ∧
    (runInstrs k.expand s).regs =
      (runInstrs [.byp k.btn k.now, .chu .ch1 k.value1 k.mask k.tr k.ctl,
        .chu .ch0 k.value0 k.mask k.tr k.ctl] s).regs

/-- R169, which the spec marks as derived from R124, R142 and R143: in the tick that turns bypass OFF, the
channels hold their targets right after the `BYP`, and at the end of the tick each has glided from there
toward its new target, and stands where it was exactly when the new target is the old one; with the rule's
example. -/
def Obligations.ReenablingTickGlidesFromTheResyncedValue : Prop :=
  (∀ (k : Tick) (s : State), s.regs.byp = true → fires s.cfg s.regs k.btn k.now = true →
    let mid := afterInstr (.byp k.btn k.now) s
    let t := runInstrs k.expand s
    mid.regs.byp = false ∧ (∀ ch, mid.regs.cur ch = toFix (s.regs.tgt ch)) ∧
    t.regs.tgt .ch0 = channelTarget s.cfg k.value0 k.mask k.tr ∧
    t.regs.tgt .ch1 = channelTarget s.cfg k.value1 k.mask k.tr ∧
    (∀ ch, t.regs.cur ch = glide s.cfg (toFix (s.regs.tgt ch)) (toFix (t.regs.tgt ch)) k.ctl) ∧
    ∀ ch, t.regs.cur ch = toFix (s.regs.tgt ch) ↔ t.regs.tgt ch = s.regs.tgt ch) ∧
  ∀ (r : Regs) (now : Time), r.cur0 = 0x0A0000#24 → r.tgt0 = 20#8 → r.byp = true →
    fires Cfg.ref r .pressed now = true →
    let s : State := ⟨Cfg.ref, r, [], none⟩
    let k : Tick := ⟨.pressed, now, 0xFFF#12, 0#8, 1023#10, 0x01E0000#25, 0x0000000#25⟩
    (afterInstr (.byp k.btn k.now) s).regs.cur0 = 0x140000#24 ∧
    (runInstrs k.expand s).regs.tgt0 = 30#8 ∧ (runInstrs k.expand s).regs.cur0 = 0x144D93#24

/-- R220: what issuing `CHU` before `BYP` costs. Where bypass turns OFF the tick ends at the stale targets;
where it turns ON the channels are updated once more. -/
def Obligations.ChuBeforeBypInATickActsOnTheOldMode : Prop :=
  ∀ (k : Tick) (s : State), fires s.cfg s.regs k.btn k.now = true →
    let swapped := runInstrs [.chu .ch0 k.value0 k.mask k.tr k.ctl, .chu .ch1 k.value1 k.mask k.tr k.ctl,
      .byp k.btn k.now] s
    (s.regs.byp = true → ∀ ch, swapped.regs.tgt ch = s.regs.tgt ch ∧
      swapped.regs.cur ch = toFix (s.regs.tgt ch)) ∧
    (s.regs.byp = false →
      (∀ ch, (runInstrs k.expand s).regs.tgt ch = s.regs.tgt ch ∧
        (runInstrs k.expand s).regs.cur ch = s.regs.cur ch) ∧
      swapped.regs.tgt .ch0 = channelTarget s.cfg k.value0 k.mask k.tr ∧
      swapped.regs.tgt .ch1 = channelTarget s.cfg k.value1 k.mask k.tr)

/-! ## The whole machine -/

/-- R26, which the spec marks as derived, from every state: a step keeps every register in range. -/
def Obligations.StepKeepsTheRegistersInRange : Prop :=
  ∀ s t : State, s.InRange → step s = .next t → t.InRange

/-- R32 with R26: the reset state of every configuration is in range. -/
def Obligations.ResetStateIsInRange : Prop :=
  (∀ cfg : Cfg, (State.resetWith cfg).InRange) ∧ State.reset.InRange

/-- R26 (marked as derived from R32, R142, R105 and R124) as it is said: for every configuration and every
sequence of command words from reset. -/
def Obligations.EveryRunFromResetStaysInRange : Prop :=
  ∀ (cfg : Cfg) (ws : List Word), (observe ws (State.resetWith cfg)).regs.InRange cfg

/-- R34 with the writers R20 to R25 list: a register that changed was written by one of its writers, with
the value that writer gives it (for a `CHU`, R142 and R143), and the configuration and the inputs were not
written. -/
def Obligations.RegistersChangeOnlyByTheirWriters : Prop :=
  ∀ (i : Instr) (s t : State), exec i s = .next t →
    (∀ ch, t.regs.cur ch ≠ s.regs.cur ch →
      (∃ value mask tr ctl, i = .chu ch value mask tr ctl ∧ s.regs.byp = false ∧
        t.regs.cur ch = channelCurrent s.cfg (s.regs.cur ch) value mask tr ctl) ∨
      (∃ btn now, i = .byp btn now ∧ s.regs.byp = true ∧ t.regs.byp = false ∧
        t.regs.cur ch = toFix (s.regs.tgt ch))) ∧
    (∀ ch, t.regs.tgt ch ≠ s.regs.tgt ch →
      ∃ value mask tr ctl, i = .chu ch value mask tr ctl ∧ s.regs.byp = false ∧
        t.regs.tgt ch = channelTarget s.cfg value mask tr) ∧
    (t.regs.byp ≠ s.regs.byp → ∃ now, i = .byp .pressed now ∧ s.regs.lvl = .released ∧
      s.cfg.debounceMs.val < (elapsed now s.regs.tacc).toNat) ∧
    (t.regs.tacc ≠ s.regs.tacc → ∃ btn, i = .byp btn t.regs.tacc ∧ t.regs.byp ≠ s.regs.byp) ∧
    (t.regs.lvl ≠ s.regs.lvl → ∃ now, i = .byp t.regs.lvl now) ∧
    t.cfg = s.cfg ∧ t.input = s.input

/-- R20, R31, R85, R100: a command's effect and result depend on the configuration and the seven registers
only, not on an earlier result or a later input; and those of `QNT` and `GLD` on no register at all, bypass
included. -/
def Obligations.NothingButTheRegistersIsCarriedOver : Prop :=
  (∀ (i : Instr) (s s' t t' : State), s.cfg = s'.cfg → s.regs = s'.regs → exec i s = .next t →
    exec i s' = .next t' → t.regs = t'.regs ∧ t.res = t'.res) ∧
  ∀ (i : Instr) (s s' t t' : State), writesRegisters i = false → s.cfg = s'.cfg → exec i s = .next t →
    exec i s' = .next t' → t.res = t'.res

/-- R227, marked as derived from R86, R106 and R155: commands that write no register may stand anywhere
among the others without changing the registers a run ends with, so a run that follows the ticks ends where
the ticks alone end. -/
def Obligations.PureCommandsChangeNoOutcome : Prop :=
  (∀ (is : List Instr) (s : State),
    (runInstrs is s).regs = (runInstrs (is.filter writesRegisters) s).regs) ∧
  ∀ (is : List Instr) (ks : List Tick) (s : State), FollowsTicks is ks →
    (runInstrs is s).regs = (runInstrs (ks.flatMap Tick.expand) s).regs

/-! ## The port -/

/-- R215, R217: at an edge with `rst = 1` the command presented is not accepted, a command in progress is
abandoned, the registers are those of R32 and the result port is low; and the first edge with `rst = 0` can
accept. That `cmd_ready` follows `rst` within the cycle, and that `res_valid` does not and is low only after
the edge, are the model's readings (log entries 6 and 13). -/
def Obligations.ResetWinsAtThePort : Prop :=
  ∀ (p : PortState) (x y : Pins), x.rst = true →
    p.accepts x = false ∧ p.cmdReady x = false ∧
    (clockEdge p x).core.regs = (State.resetWith p.core.cfg).regs ∧ (clockEdge p x).core.cfg = p.core.cfg ∧
    (clockEdge p x).busy = none ∧ (clockEdge p x).resValid = false ∧
    (y.rst = false → y.cmdValid = true → (clockEdge p x).accepts y = true)

/-- R30, R56, R226: an accepted command finishes after at least one more edge, whatever the free latency is
(log entry 5); until then the five state ports show the old registers, with no result and not ready, and then
the registers of the next state, the result and ready all at once. -/
def Obligations.AcceptedCommandFinishesAtThePort : Prop :=
  ∀ (p : PortState) (x : Pins) (xs : List Pins), p.accepts x = true → (∀ y ∈ xs, y.rst = false) →
    (xs.length ≤ Config.extraCycles p.count →
      (runEdges (x :: xs) p).core.ports =
        { cur0 := p.core.regs.cur0, cur1 := p.core.regs.cur1, tgt0 := p.core.regs.tgt0,
          tgt1 := p.core.regs.tgt1, bypass := p.core.regs.byp, result := none } ∧
      (runEdges (x :: xs) p).resValid = false ∧
      ∀ y, (runEdges (x :: xs) p).cmdReady y = false) ∧
    (xs.length = Config.extraCycles p.count + 1 →
      (∃ t, exec (decode x.cmd) p.core = .next t ∧
        (runEdges (x :: xs) p).core.ports =
          { cur0 := t.regs.cur0, cur1 := t.regs.cur1, tgt0 := t.regs.tgt0, tgt1 := t.regs.tgt1,
            bypass := t.regs.byp, result := t.res }) ∧
      (runEdges (x :: xs) p).resValid = true ∧
      ∀ y, y.rst = false → (runEdges (x :: xs) p).cmdReady y = true)

/-- R56: behind the handshake the block is the abstract machine. Along any edges without reset, from a
block at rest, the registers and the results presented are those of the accepted words executed in order,
less the one still in progress; so each accepted command presents its result exactly once. It holds for
every value of the free latency (log entry 5). -/
def Obligations.PortRefinesTheCommandMachine : Prop :=
  ∀ (p : PortState) (xs : List Pins), p.busy = none → (∀ x ∈ xs, x.rst = false) →
    ∃ done : List Word,
      (runEdges xs p).core.regs = (observe done p.core).regs ∧
      presentedResults xs p = (observe done p.core).results ∧
      (((runEdges xs p).busy = none ∧ acceptedWords xs p = done) ∨
        ∃ w n, (runEdges xs p).busy = some (w, n) ∧ acceptedWords xs p = done ++ [w])

/-! ## Steps that take no command -/

/-- Every step answers a next state: on a command word by R185, on a reset input by R217 and on no input by
R199. That resets stand among the inputs is log entry 2, and that a step with no input is taken is log
entry 4. -/
def Obligations.EveryStepCompletes : Prop :=
  ∀ s : State, Completes (step s)
end

