-- ==== Sys2Proof/Laws/Arith.lean ====
section
/-! SUPPORT. What the helper functions of 00_scope.md rule R13 can give, each said once. -/

namespace Sys2Proof.Machine

/-- A clamped value lies between the bounds. -/
theorem clamp_mem (x : Int) {lo hi : Int} (h : lo ≤ hi) : lo ≤ clamp x lo hi ∧ clamp x lo hi ≤ hi := by
  unfold clamp; split
  · omega
  · split <;> omega

/-- Clamping leaves a value between the bounds alone. -/
theorem clamp_of_mem {x lo hi : Int} (h₁ : lo ≤ x) (h₂ : x ≤ hi) : clamp x lo hi = x := by
  unfold clamp; split
  · omega
  · split <;> omega

/-- The class of an integer is its remainder modulo 12. -/
theorem mod12_eq_emod (x : Int) : mod12 x = x % 12 := by unfold mod12; omega

/-- A class is one of `0..11`. -/
theorem mod12_mem (x : Int) : 0 ≤ mod12 x ∧ mod12 x ≤ 11 := by unfold mod12; omega

/-- `tdiv` is the library's division toward zero. -/
theorem tdiv_eq_int_tdiv (a : Int) (b : Nat) : tdiv a b = Int.tdiv a b := by
  unfold tdiv
  rcases Int.le_total 0 a with h | h
  · lift a to Nat using h
    rcases Nat.eq_zero_or_pos a with rfl | ha
    · simp
    · simp [Int.sign_natCast_of_ne_zero (by omega : a ≠ 0)]
  · obtain ⟨n, rfl⟩ : ∃ n : Nat, a = -(n : Int) := ⟨a.natAbs, by omega⟩
    rcases Nat.eq_zero_or_pos n with rfl | hn
    · simp
    · simp [Int.sign_neg, Int.sign_natCast_of_ne_zero (by omega : n ≠ 0), Int.neg_tdiv]

/-- For a non-negative dividend `tdiv` is floor division. -/
theorem tdiv_natCast (n b : Nat) : tdiv n b = ((n / b : Nat) : Int) := by
  rw [tdiv_eq_int_tdiv]; simp

/-- `tdiv` is symmetric about zero. -/
theorem tdiv_neg (a : Int) (b : Nat) : tdiv (-a) b = -tdiv a b := by
  simp [tdiv_eq_int_tdiv, Int.neg_tdiv]

/-- The integer semitone in raw units does not wrap. -/
@[simp] theorem toFix_toNat (s : Sem) : (toFix s).toNat = s.toNat * 65536 := by
  have := s.isLt
  simp only [toFix, BitVec.toNat_ofNat]; omega

/-- A raw `value` lies in the range of an `SFix`. -/
theorem valueOf_mem (v : SFix) : -16777216 ≤ valueOf v ∧ valueOf v ≤ 16777215 := by
  have h := v.isLt
  unfold valueOf
  rw [BitVec.toInt_eq_toNat_cond]
  split <;> omega

/-- A transpose offset lies in the range of a `Tr`. -/
theorem transposeOf_mem (tr : Tr) : -128 ≤ transposeOf tr ∧ transposeOf tr ≤ 127 := by
  have h := tr.isLt
  unfold transposeOf
  rw [BitVec.toInt_eq_toNat_cond]
  split <;> omega

/-- An integer that fits eight bits is stored without wrap. -/
theorem ofInt8_toNat {x : Int} (h₁ : 0 ≤ x) (h₂ : x ≤ 255) : ((BitVec.ofInt 8 x).toNat : Int) = x := by
  rw [BitVec.toNat_ofInt]; omega

/-- An integer that fits twenty-four bits is stored without wrap. -/
theorem ofInt24_toNat {x : Int} (h₁ : 0 ≤ x) (h₂ : x ≤ 16777215) :
    ((BitVec.ofInt 24 x).toNat : Int) = x := by
  rw [BitVec.toNat_ofInt]; omega

end Sys2Proof.Machine
end

