-- ==== Sys2Proof/Laws/Decode.lean ====
section
/-! SUPPORT. Reading the opcode field of a command word, and the operands that fit their fields. -/

namespace Sys2Proof

/-- The three bits the decoder reads are those of the opcode field. -/
theorem opcode_bits {w : Word} {o : BitVec 3} (h : w.extractLsb' 61 3 = o) :
    w.getLsbD 63 = o.getLsbD 2 ∧ w.getLsbD 62 = o.getLsbD 1 ∧ w.getLsbD 61 = o.getLsbD 0 := by
  subst h; simp

/-- The opcode field written out bit by bit, the highest bit first. -/
theorem opcode_field (w : Word) : w.extractLsb' 61 3 =
    BitVec.ofBool (w.getLsbD 63) ++ BitVec.ofBool (w.getLsbD 62) ++ BitVec.ofBool (w.getLsbD 61) := by
  ext i hi
  have : i = 0 ∨ i = 1 ∨ i = 2 := by omega
  rcases this with rfl | rfl | rfl <;>
    simp only [← BitVec.getLsbD_eq_getElem, BitVec.getLsbD_append] <;> simp

/-- The decoder on a word whose opcode field is known. -/
theorem decode_of_opcode {w : Word} {o : BitVec 3} (h : w.extractLsb' 61 3 = o) :
    decode w =
      match o.getLsbD 2, o.getLsbD 1, o.getLsbD 0 with
      | false, false, false => .nop
      | false, false, true => decodeQ w
      | false, true, false => decodeG w
      | false, true, true => decodeB w
      | true, false, false => decodeC w
      | true, false, true => .rsv5
      | true, true, false => .rsv6
      | true, true, true => .rsv7 := by
  obtain ⟨h₁, h₂, h₃⟩ := opcode_bits h
  simp only [decode, h₁, h₂, h₃] <;> rfl

@[simp] theorem Level.ofBit_toBit (l : Level) : Level.ofBit (l.toBit.getLsbD 0) = l := by
  cases l <;> rfl
@[simp] theorem Chan.ofBit_toBit (c : Chan) : Chan.ofBit (c.toBit.getLsbD 0) = c := by cases c <;> rfl
@[simp] theorem Level.toBit_ofBit (b : Bool) : (Level.ofBit b).toBit = BitVec.ofBool b := by
  cases b <;> rfl
@[simp] theorem Chan.toBit_ofBit (b : Bool) : (Chan.ofBit b).toBit = BitVec.ofBool b := by cases b <;> rfl

/-! ### Operands in range are stored without wrap -/

theorem fitsSFix_toInt {v : Int} (h : fitsSFix v = true) : (BitVec.ofInt 25 v).toInt = v := by
  simp only [fitsSFix, decide_eq_true_eq] at h
  exact BitVec.toInt_ofInt_eq_self (by omega) (by omega) (by omega)

theorem fitsTr_toInt {v : Int} (h : fitsTr v = true) : (BitVec.ofInt 8 v).toInt = v := by
  simp only [fitsTr, decide_eq_true_eq] at h
  exact BitVec.toInt_ofInt_eq_self (by omega) (by omega) (by omega)

theorem fitsFix_toNat {v : Int} (h : fitsFix v = true) : ((BitVec.ofInt 24 v).toNat : Int) = v := by
  simp only [fitsFix, decide_eq_true_eq] at h
  rw [BitVec.toNat_ofInt]; omega

theorem fitsMask_toNat {m : Nat} (h : fitsMask m = true) : (BitVec.ofNat 12 m).toNat = m := by
  simp only [fitsMask, decide_eq_true_eq] at h
  rw [BitVec.toNat_ofNat]; omega

theorem fitsCtl_toNat {c : Nat} (h : fitsCtl c = true) : (BitVec.ofNat 10 c).toNat = c := by
  simp only [fitsCtl, decide_eq_true_eq] at h
  rw [BitVec.toNat_ofNat]; omega

theorem fitsTime_toNat {t : Nat} (h : fitsTime t = true) : (BitVec.ofNat 32 t).toNat = t := by
  simp only [fitsTime, decide_eq_true_eq] at h
  rw [BitVec.toNat_ofNat]; omega

theorem fitsChan_toNat {c : Nat} (h : fitsChan c = true) :
    (Chan.ofBit (decide (c = 1))).toBit.toNat = c := by
  simp only [fitsChan, decide_eq_true_eq] at h
  have : c = 0 ∨ c = 1 := by omega
  rcases this with rfl | rfl <;> rfl

end Sys2Proof
end

