-- ==== Sys2Proof/Laws/State.lean ====
section
/-! SUPPORT. One lemma for each field after each named update of the registers and of the state, so that
no later proof unfolds a record update. -/

namespace Sys2Proof.Machine

/-! ### `Regs.setChannel` -/

section
variable (r : Regs) (ch o : Chan) (t : Sem) (v : Fix)

@[simp] theorem Regs.setChannel_cur_self : (r.setChannel ch t v).cur ch = v := by cases ch <;> rfl
@[simp] theorem Regs.setChannel_tgt_self : (r.setChannel ch t v).tgt ch = t := by cases ch <;> rfl
theorem Regs.setChannel_cur_other (h : o ≠ ch) : (r.setChannel ch t v).cur o = r.cur o := by
  cases ch <;> cases o <;> first | rfl | exact absurd rfl h
theorem Regs.setChannel_tgt_other (h : o ≠ ch) : (r.setChannel ch t v).tgt o = r.tgt o := by
  cases ch <;> cases o <;> first | rfl | exact absurd rfl h
@[simp] theorem Regs.setChannel_byp : (r.setChannel ch t v).byp = r.byp := by cases ch <;> rfl
@[simp] theorem Regs.setChannel_lvl : (r.setChannel ch t v).lvl = r.lvl := by cases ch <;> rfl
@[simp] theorem Regs.setChannel_tacc : (r.setChannel ch t v).tacc = r.tacc := by cases ch <;> rfl
theorem Regs.setChannel_comm (t' : Sem) (v' : Fix) (h : o ≠ ch) :
    (r.setChannel ch t v).setChannel o t' v' = (r.setChannel o t' v').setChannel ch t v := by
  cases ch <;> cases o <;> first | rfl | exact absurd rfl h

/-! ### `Regs.resync` -/

@[simp] theorem Regs.resync_cur : r.resync.cur ch = toFix (r.tgt ch) := by cases ch <;> rfl
@[simp] theorem Regs.resync_tgt : r.resync.tgt ch = r.tgt ch := by cases ch <;> rfl
@[simp] theorem Regs.resync_byp : r.resync.byp = r.byp := rfl
@[simp] theorem Regs.resync_lvl : r.resync.lvl = r.lvl := rfl
@[simp] theorem Regs.resync_tacc : r.resync.tacc = r.tacc := rfl

end

/-! ### The state's updates -/

section
variable (s : State) (x : Result) (l : List Input) (r : Regs)

@[simp] theorem State.withInput_cfg : (s.withInput l).cfg = s.cfg := rfl
@[simp] theorem State.withInput_regs : (s.withInput l).regs = s.regs := rfl
@[simp] theorem State.withInput_input : (s.withInput l).input = l := rfl
@[simp] theorem State.withInput_res : (s.withInput l).res = s.res := rfl
@[simp] theorem State.withRegs_cfg : (s.withRegs r).cfg = s.cfg := rfl
@[simp] theorem State.withRegs_regs : (s.withRegs r).regs = r := rfl
@[simp] theorem State.withRegs_input : (s.withRegs r).input = s.input := rfl
@[simp] theorem State.withRegs_res : (s.withRegs r).res = s.res := rfl
@[simp] theorem State.respond_cfg : (s.respond x).cfg = s.cfg := rfl
@[simp] theorem State.respond_regs : (s.respond x).regs = s.regs := rfl
@[simp] theorem State.respond_input : (s.respond x).input = s.input := rfl
@[simp] theorem State.respond_res : (s.respond x).res = some x := rfl
@[simp] theorem State.clearResult_cfg : s.clearResult.cfg = s.cfg := rfl
@[simp] theorem State.clearResult_regs : s.clearResult.regs = s.regs := rfl
@[simp] theorem State.clearResult_input : s.clearResult.input = s.input := rfl
@[simp] theorem State.clearResult_res : s.clearResult.res = none := rfl
@[simp] theorem State.applyReset_cfg : s.applyReset.cfg = s.cfg := rfl
@[simp] theorem State.applyReset_regs : s.applyReset.regs = Regs.reset := rfl
@[simp] theorem State.applyReset_input : s.applyReset.input = s.input := rfl
@[simp] theorem State.applyReset_res : s.applyReset.res = none := rfl

end

/-! ### The ports -/

section
variable (s : State)

@[simp] theorem State.ports_cur0 : s.ports.cur0 = s.regs.cur0 := rfl
@[simp] theorem State.ports_cur1 : s.ports.cur1 = s.regs.cur1 := rfl
@[simp] theorem State.ports_tgt0 : s.ports.tgt0 = s.regs.tgt0 := rfl
@[simp] theorem State.ports_tgt1 : s.ports.tgt1 = s.regs.tgt1 := rfl
@[simp] theorem State.ports_bypass : s.ports.bypass = s.regs.byp := rfl
@[simp] theorem State.ports_result : s.ports.result = s.res := rfl

end

/-! ### Reset -/

section
variable (cfg : Cfg)

@[simp] theorem State.resetWith_cfg : (State.resetWith cfg).cfg = cfg := rfl
@[simp] theorem State.resetWith_regs : (State.resetWith cfg).regs = Regs.reset := rfl
@[simp] theorem State.resetWith_input : (State.resetWith cfg).input = [] := rfl
@[simp] theorem State.resetWith_res : (State.resetWith cfg).res = none := rfl
@[simp] theorem Regs.reset_byp : Regs.reset.byp = false := rfl
@[simp] theorem Regs.reset_lvl : Regs.reset.lvl = .released := rfl
@[simp] theorem Regs.reset_tacc : Regs.reset.tacc = 0 := rfl
@[simp] theorem Regs.reset_cur (ch : Chan) : Regs.reset.cur ch = 0 := by cases ch <;> rfl
@[simp] theorem Regs.reset_tgt (ch : Chan) : Regs.reset.tgt ch = 0 := by cases ch <;> rfl

end

end Sys2Proof.Machine
end

