-- ==== Sys2Proof/Laws/Exec.lean ====
section
/-! SUPPORT. What one `BYP`, one `CHU`, one command and one step can do, each said once, and the laws of
running a list of commands. -/

namespace Sys2Proof.Machine

/-- A press is accepted exactly when R122's three conjuncts hold. -/
theorem fires_iff (cfg : Cfg) (r : Regs) (btn : Level) (now : Time) :
    fires cfg r btn now = true ↔
      cfg.debounceMs.val < (elapsed now r.tacc).toNat ∧ btn = .pressed ∧ r.lvl = .released := by
  simp [fires, late, and_assoc]

/-- A controller step that did not fire only records the level. -/
theorem bypassStep_quiet {cfg : Cfg} {r : Regs} {btn : Level} {now : Time}
    (h : fires cfg r btn now = false) : bypassStep cfg r btn now = { r with lvl := btn } := by
  simp [bypassStep, h]

/-- A controller step that fired while bypass was OFF turns it ON and stamps the time. -/
theorem bypassStep_on {cfg : Cfg} {r : Regs} {btn : Level} {now : Time}
    (h : fires cfg r btn now = true) (hb : r.byp = false) :
    bypassStep cfg r btn now = { r with byp := true, tacc := now, lvl := btn } := by
  simp [bypassStep, h, Regs.toggle, hb]

/-- A controller step that fired while bypass was ON resyncs the channels, turns it OFF and stamps the
time. -/
theorem bypassStep_off {cfg : Cfg} {r : Regs} {btn : Level} {now : Time}
    (h : fires cfg r btn now = true) (hb : r.byp = true) :
    bypassStep cfg r btn now = { r.resync with byp := false, tacc := now, lvl := btn } := by
  simp [bypassStep, h, Regs.toggle, hb]

/-- The flag toggled exactly when the press was accepted. -/
theorem fires_eq_toggled (cfg : Cfg) (r : Regs) (btn : Level) (now : Time) :
    fires cfg r btn now = decide ((bypassStep cfg r btn now).byp ≠ r.byp) := by
  cases h : fires cfg r btn now
  · simp [bypassStep_quiet h]
  · cases hb : r.byp
    · simp [bypassStep_on h hb]
    · simp [bypassStep_off h hb]

/-- The new target lies in the range and is the clamped sum, without wrap. -/
theorem channelTarget_toNat (cfg : Cfg) (value : SFix) (mask : Mask) (tr : Tr) :
    ((channelTarget cfg value mask tr).toNat : Int) =
      clamp (((quantize cfg value mask).1.toNat : Int) + transposeOf tr) 0 (cfg.maxSemitones.val : Int) := by
  have hm := cfg.maxSemitones.isLt
  have := clamp_mem (((quantize cfg value mask).1.toNat : Int) + transposeOf tr)
    (show (0 : Int) ≤ (cfg.maxSemitones.val : Int) by omega)
  exact ofInt8_toNat (by omega) (by omega)

section
variable (s : State)

@[simp] theorem afterInstr_nop : afterInstr .nop s = s.respond ⟨0, .clear⟩ := rfl
@[simp] theorem afterInstr_qnt (value : SFix) (mask : Mask) : afterInstr (.qnt value mask) s =
    s.respond ⟨toFix (quantize s.cfg value mask).1, .ofMiss (quantize s.cfg value mask).2⟩ := rfl
@[simp] theorem afterInstr_gld (current target : Fix) (ctl : Ctl) : afterInstr (.gld current target ctl) s =
    s.respond ⟨glide s.cfg current target ctl, .clear⟩ := rfl
@[simp] theorem afterInstr_rsv5 : afterInstr .rsv5 s = s.respond ⟨0, .illegal⟩ := rfl
@[simp] theorem afterInstr_rsv6 : afterInstr .rsv6 s = s.respond ⟨0, .illegal⟩ := rfl
@[simp] theorem afterInstr_rsv7 : afterInstr .rsv7 s = s.respond ⟨0, .illegal⟩ := rfl
@[simp] theorem afterInstr_byp (btn : Level) (now : Time) : afterInstr (.byp btn now) s =
    (s.withRegs (bypassStep s.cfg s.regs btn now)).respond
      ⟨zextFlag (bypassStep s.cfg s.regs btn now).byp, .ofTog (fires s.cfg s.regs btn now)⟩ := rfl

/-- A `CHU` under bypass changes nothing. -/
theorem afterInstr_chu_skip {ch : Chan} {value : SFix} {mask : Mask} {tr : Tr} {ctl : Ctl}
    (h : s.regs.byp = true) :
    afterInstr (.chu ch value mask tr ctl) s = s.respond ⟨s.regs.cur ch, .skipped⟩ := by
  simp [afterInstr, exec, execChu, h]

/-- A `CHU` with bypass off writes its channel and answers its new current value. -/
theorem afterInstr_chu_run {ch : Chan} {value : SFix} {mask : Mask} {tr : Tr} {ctl : Ctl}
    (h : s.regs.byp = false) :
    afterInstr (.chu ch value mask tr ctl) s =
      (s.withRegs (s.regs.setChannel ch (channelTarget s.cfg value mask tr)
        (channelCurrent s.cfg (s.regs.cur ch) value mask tr ctl))).respond
        ⟨channelCurrent s.cfg (s.regs.cur ch) value mask tr ctl, .ofMiss (quantize s.cfg value mask).2⟩ := by
  simp [afterInstr, exec, execChu, h]

/-- No command changes the configuration. -/
@[simp] theorem afterInstr_cfg (i : Instr) : (afterInstr i s).cfg = s.cfg := by
  cases i with
  | chu ch value mask tr ctl =>
    cases h : s.regs.byp
    · rw [afterInstr_chu_run s h]; rfl
    · rw [afterInstr_chu_skip s h]; rfl
  | _ => rfl

/-- No command touches the inputs still to come. -/
@[simp] theorem afterInstr_input (i : Instr) : (afterInstr i s).input = s.input := by
  cases i with
  | chu ch value mask tr ctl =>
    cases h : s.regs.byp
    · rw [afterInstr_chu_run s h]; rfl
    · rw [afterInstr_chu_skip s h]; rfl
  | _ => rfl

end

/-- What a command answers is the state `afterInstr` names. -/
theorem exec_eq_afterInstr (i : Instr) (s : State) : exec i s = .next (afterInstr i s) := by
  cases i with
  | chu ch value mask tr ctl =>
    cases h : s.regs.byp
    · rw [afterInstr_chu_run s h]; simp [exec, execChu, h]
    · rw [afterInstr_chu_skip s h]; simp [exec, execChu, h]
  | _ => rfl

/-- A command passes the inputs through: with other inputs to come it does the same. -/
theorem afterInstr_withInput (i : Instr) (s : State) (l : List Input) :
    afterInstr i (s.withInput l) = (afterInstr i s).withInput l := by
  cases i with
  | chu ch value mask tr ctl =>
    cases h : s.regs.byp
    · rw [afterInstr_chu_run s h, afterInstr_chu_run _ (by exact h)]; rfl
    · rw [afterInstr_chu_skip s h, afterInstr_chu_skip _ (by exact h)]; rfl
  | _ => rfl

/-- Every command presents a result. -/
theorem afterInstr_res (i : Instr) (s : State) : ∃ r, (afterInstr i s).res = some r := by
  cases i with
  | chu ch value mask tr ctl =>
    cases h : s.regs.byp
    · exact ⟨_, by rw [afterInstr_chu_run s h]; rfl⟩
    · exact ⟨_, by rw [afterInstr_chu_skip s h]; rfl⟩
  | _ => exact ⟨_, rfl⟩

/-- Running two lists is running the first and then the second. -/
theorem runInstrs_append (is js : List Instr) (s : State) :
    runInstrs (is ++ js) s = runInstrs js (runInstrs is s) := by
  induction is generalizing s with
  | nil => rfl
  | cons i is ih => exact ih _

/-- No run changes the configuration. -/
@[simp] theorem runInstrs_cfg (is : List Instr) (s : State) : (runInstrs is s).cfg = s.cfg := by
  induction is generalizing s with
  | nil => rfl
  | cons i is ih => exact (ih _).trans (afterInstr_cfg s i)

/-- The results of a run do not depend on the inputs still to come. -/
theorem resultsOf_withInput (is : List Instr) (s : State) (l : List Input) :
    resultsOf is (s.withInput l) = resultsOf is s := by
  induction is generalizing s with
  | nil => rfl
  | cons i is ih => simp only [resultsOf, afterInstr_withInput, State.withInput_res, ih]

/-- A run passes the inputs through. -/
theorem runInstrs_withInput (is : List Instr) (s : State) (l : List Input) :
    runInstrs is (s.withInput l) = (runInstrs is s).withInput l := by
  induction is generalizing s with
  | nil => rfl
  | cons i is ih => simp only [runInstrs, afterInstr_withInput, ih]

/-- A run presents one result per command. -/
theorem resultsOf_length (is : List Instr) (s : State) : (resultsOf is s).length = is.length := by
  induction is generalizing s with
  | nil => rfl
  | cons i is ih =>
    obtain ⟨r, hr⟩ := afterInstr_res i s
    simp [resultsOf, hr, ih]

/-- The results of two lists are those of the first and then those of the second. -/
theorem resultsOf_append (is js : List Instr) (s : State) :
    resultsOf (is ++ js) s = resultsOf is s ++ resultsOf js (runInstrs is s) := by
  induction is generalizing s with
  | nil => rfl
  | cons i is ih => simp only [List.cons_append, resultsOf, runInstrs, ih, List.append_assoc]

/-- A property of states that every command of a list keeps holds after the list. -/
theorem runInstrs_induct {P : State → Prop} {is : List Instr} {s : State} (h0 : P s)
    (hstep : ∀ i ∈ is, ∀ t, P t → P (afterInstr i t)) : P (runInstrs is s) := by
  induction is generalizing s with
  | nil => exact h0
  | cons i is ih =>
    exact ih (hstep i (List.mem_cons_self ..) s h0) fun j hj => hstep j (List.mem_cons_of_mem _ hj)

/-- The three things a step can do: idle, take a reset, take a command. -/
theorem step_cases {s t : State} (h : step s = .next t) :
    (s.input = [] ∧ t = s.clearResult) ∨
    (∃ rest, s.input = .reset :: rest ∧ t = (s.withInput rest).applyReset) ∨
    (∃ w rest, s.input = .command w :: rest ∧ exec (decode w) (s.withInput rest) = .next t) := by
  unfold step at h
  split at h
  · next h0 => exact .inl ⟨h0, (Host.Outcome.next.inj h).symm⟩
  · next w rest h0 => exact .inr (.inr ⟨w, rest, h0, h⟩)
  · next rest h0 => exact .inr (.inl ⟨rest, h0, (Host.Outcome.next.inj h).symm⟩)

/-- The state a command answers is the one `afterInstr` names. -/
theorem eq_afterInstr {i : Instr} {s t : State} (h : exec i s = .next t) : t = afterInstr i s := by
  simp [afterInstr, h]

end Sys2Proof.Machine
end

