-- ==== Sys2Proof/Laws/Glide.lean ====
section
/-! SUPPORT. The range of the step count and the two things `glide` can answer. -/

namespace Sys2Proof.Machine

/-- The step count is at least 1 and at most 33. -/
theorem steps_mem (ctl : Ctl) : 1 ≤ steps ctl ∧ steps ctl ≤ 33 := by
  have := ctl.isLt
  unfold steps; omega

/-- The distance one call moves is at most the distance there is, and toward the target. -/
theorem glideDelta_cases (current target : Fix) (ctl : Ctl) :
    (current.toNat ≤ target.toNat ∧
      glideDelta current target ctl = (((target.toNat - current.toNat) / steps ctl : Nat) : Int)) ∨
    (target.toNat < current.toNat ∧
      glideDelta current target ctl = -(((current.toNat - target.toNat) / steps ctl : Nat) : Int)) := by
  unfold glideDelta fixOf
  rcases Nat.lt_or_ge target.toNat current.toNat with h | h
  · refine .inr ⟨h, ?_⟩
    rw [show (target.toNat : Int) - current.toNat = -((current.toNat - target.toNat : Nat) : Int) by omega,
      tdiv_neg, tdiv_natCast]
  · refine .inl ⟨h, ?_⟩
    rw [show (target.toNat : Int) - current.toNat = ((target.toNat - current.toNat : Nat) : Int) by omega,
      tdiv_natCast]

/-- In the snap region the answer is the target. -/
theorem glide_snap {cfg : Cfg} {ctl : Ctl} (h : ctl.toNat < cfg.snapThreshold.val) (current target : Fix) :
    glide cfg current target ctl = target := by
  simp [glide, snaps, h]

/-- Outside the snap region the answer is the sum of R103 and does not wrap. -/
theorem glide_move {cfg : Cfg} {ctl : Ctl} (h : cfg.snapThreshold.val ≤ ctl.toNat) (current target : Fix) :
    ((glide cfg current target ctl).toNat : Int) = current.toNat + glideDelta current target ctl := by
  have h1 := current.isLt
  have h2 := target.isLt
  simp only [glide, snaps, Nat.not_lt.2 h, decide_false, Bool.false_eq_true, if_false]
  rcases glideDelta_cases current target ctl with ⟨hle, hd⟩ | ⟨hlt, hd⟩
  · have := Nat.div_le_self (target.toNat - current.toNat) (steps ctl)
    rw [hd]
    generalize (target.toNat - current.toNat) / steps ctl = k at *
    exact ofInt24_toNat (by unfold fixOf; omega) (by unfold fixOf; omega)
  · have := Nat.div_le_self (current.toNat - target.toNat) (steps ctl)
    rw [hd]
    generalize (current.toNat - target.toNat) / steps ctl = k at *
    exact ofInt24_toNat (by unfold fixOf; omega) (by unfold fixOf; omega)

end Sys2Proof.Machine
end

