-- ==== Sys2Proof/Laws/PerInstr.lean ====
section
/-! SUPPORT. A family of statements about an instruction as syntax, one lemma per constructor. -/

/-- The assembler's word carries the instruction's opcode in its top three bits (30_encoding.md rules R57,
R63). -/
def Sys2Proof.Laws.WordOpcode.Statement (i : Sys2Proof.Instr) : Prop :=
  (Sys2Proof.encode i).extractLsb' 61 3 = i.opcode

namespace Sys2Proof.Laws.WordOpcode

theorem nop : Statement .nop := by unfold Statement; decide

theorem qnt (value : SFix) (mask : Mask) : Statement (.qnt value mask) := by
  unfold Statement
  ext i hi
  simp only [encode, Instr.opcode, BitVec.getElem_extractLsb', BitVec.getLsbD_append]
  have : i = 0 ∨ i = 1 ∨ i = 2 := by omega
  rcases this with rfl | rfl | rfl <;> simp

theorem gld (current target : Fix) (ctl : Ctl) : Statement (.gld current target ctl) := by
  unfold Statement
  ext i hi
  simp only [encode, Instr.opcode, BitVec.getElem_extractLsb', BitVec.getLsbD_append]
  have : i = 0 ∨ i = 1 ∨ i = 2 := by omega
  rcases this with rfl | rfl | rfl <;> simp

theorem byp (btn : Level) (now : Time) : Statement (.byp btn now) := by
  unfold Statement
  ext i hi
  simp only [encode, Instr.opcode, BitVec.getElem_extractLsb', BitVec.getLsbD_append]
  have : i = 0 ∨ i = 1 ∨ i = 2 := by omega
  rcases this with rfl | rfl | rfl <;> simp

theorem chu (ch : Chan) (value : SFix) (mask : Mask) (tr : Tr) (ctl : Ctl) :
    Statement (.chu ch value mask tr ctl) := by
  unfold Statement
  ext i hi
  simp only [encode, Instr.opcode, BitVec.getElem_extractLsb', BitVec.getLsbD_append]
  have : i = 0 ∨ i = 1 ∨ i = 2 := by omega
  rcases this with rfl | rfl | rfl <;> simp

theorem rsv5 : Statement .rsv5 := by unfold Statement; decide

theorem rsv6 : Statement .rsv6 := by unfold Statement; decide

theorem rsv7 : Statement .rsv7 := by unfold Statement; decide

end Sys2Proof.Laws.WordOpcode
end

