-- ==== Sys2Proof/Laws/Port.lean ====
section
/-! SUPPORT. What one clock edge can do, each said once, and the laws of running a list of edges. -/

namespace Sys2Proof.Machine

/-- Reset at an edge. -/
theorem clockEdge_reset {p : PortState} {x : Pins} (h : x.rst = true) :
    clockEdge p x = { p with core := p.core.applyReset, busy := none } := by
  simp [clockEdge, h]

/-- A command in progress with edges to go. -/
theorem clockEdge_busy {p : PortState} {x : Pins} {w : Word} {n : Nat} (h : x.rst = false)
    (hb : p.busy = some (w, n + 1)) :
    clockEdge p x = { p with core := p.core.clearResult, busy := some (w, n) } := by
  simp [clockEdge, h, hb]

/-- A command in progress at its last edge. -/
theorem clockEdge_finish {p : PortState} {x : Pins} {w : Word} (h : x.rst = false)
    (hb : p.busy = some (w, 0)) :
    clockEdge p x = { p with core := afterInstr (decode w) p.core, busy := none } := by
  simp [clockEdge, h, hb]

/-- A block at rest accepts the command presented. -/
theorem clockEdge_accept {p : PortState} {x : Pins} (h : p.accepts x = true) :
    clockEdge p x =
      { core := p.core.clearResult, busy := some (x.cmd, Config.extraCycles p.count),
        count := p.count + 1 } := by
  simp only [PortState.accepts, PortState.cmdReady, Bool.and_eq_true, Bool.not_eq_true',
    Option.isNone_iff_eq_none] at h
  simp [clockEdge, h.1.1, h.1.2, h.2.2]

/-- A block at rest with no command presented. -/
theorem clockEdge_idle {p : PortState} {x : Pins} (h : x.rst = false) (hv : x.cmdValid = false)
    (hb : p.busy = none) : clockEdge p x = { p with core := p.core.clearResult } := by
  simp [clockEdge, h, hv, hb]

/-- Running two lists of edges is running the first and then the second. -/
theorem runEdges_append (xs ys : List Pins) (p : PortState) :
    runEdges (xs ++ ys) p = runEdges ys (runEdges xs p) := by
  induction xs generalizing p with
  | nil => rfl
  | cons x xs ih => exact ih _

/-- The words accepted along two lists of edges. -/
theorem acceptedWords_append (xs ys : List Pins) (p : PortState) :
    acceptedWords (xs ++ ys) p = acceptedWords xs p ++ acceptedWords ys (runEdges xs p) := by
  induction xs generalizing p with
  | nil => rfl
  | cons x xs ih => simp only [List.cons_append, acceptedWords, runEdges, ih, List.append_assoc]

/-- The results presented along two lists of edges. -/
theorem presentedResults_append (xs ys : List Pins) (p : PortState) :
    presentedResults (xs ++ ys) p = presentedResults xs p ++ presentedResults ys (runEdges xs p) := by
  induction xs generalizing p with
  | nil => rfl
  | cons x xs ih => simp only [List.cons_append, presentedResults, runEdges, ih, List.append_assoc]

end Sys2Proof.Machine
end

