-- ==== Sys2Proof/Laws/Quantize.lean ====
section
/-! SUPPORT. What the rounding, the search and `quantize` can answer, each said once. -/

namespace Sys2Proof.Machine

/-- The rounding is within half a unit of its argument, on the raw integers. -/
theorem rhaz_near (v : Int) : v - 32768 ≤ rhaz v * 65536 ∧ rhaz v * 65536 ≤ v + 32768 := by
  unfold rhaz; split <;> omega

/-- The candidate is in range. -/
theorem candidate_mem (cfg : Cfg) (v : SFix) :
    0 ≤ candidate cfg v ∧ candidate cfg v ≤ (cfg.maxSemitones.val : Int) :=
  clamp_mem _ (by omega)

/-- `ok` as a proposition: in range and in-scale. -/
theorem acceptable_iff (cfg : Cfg) (m : Mask) (s : Int) :
    acceptable cfg m s = true ↔
      0 ≤ s ∧ s ≤ (cfg.maxSemitones.val : Int) ∧ m.getLsbD (s % 12).toNat = true := by
  simp [acceptable, inScale, hasClass, mod12_eq_emod, and_assoc]

/-- A search that found something found it at a radius of its list, at the first radius with a hit, above
only where the value below did not hit. -/
theorem search_some {cfg : Cfg} {m : Mask} {c q : Int} {ds : List Nat} (h : search cfg m c ds = some q) :
    ∃ (before : List Nat) (d : Nat) (after : List Nat), ds = before ++ d :: after ∧
      (∀ e ∈ before, acceptable cfg m (c - e) = false ∧ acceptable cfg m (c + e) = false) ∧
      ((q = c - d ∧ acceptable cfg m (c - d) = true) ∨
        (q = c + d ∧ acceptable cfg m (c - d) = false ∧ acceptable cfg m (c + d) = true)) := by
  induction ds with
  | nil => simp [search] at h
  | cons d ds ih =>
    unfold search at h
    split at h
    · next hlo => exact ⟨[], d, ds, rfl, by simp, .inl ⟨(Option.some.inj h).symm, hlo⟩⟩
    · next hlo =>
      split at h
      · next hhi =>
        exact ⟨[], d, ds, rfl, by simp, .inr ⟨(Option.some.inj h).symm, by simpa using hlo, hhi⟩⟩
      · next hhi =>
        obtain ⟨before, e, after, rfl, hbefore, hit⟩ := ih h
        refine ⟨d :: before, e, after, rfl, ?_, hit⟩
        rintro x hx
        rcases List.mem_cons.1 hx with rfl | hx
        · exact ⟨by simpa using hlo, by simpa using hhi⟩
        · exact hbefore x hx

/-- A search that found nothing tested every radius of its list in vain. -/
theorem search_none {cfg : Cfg} {m : Mask} {c : Int} {ds : List Nat} (h : search cfg m c ds = none) :
    ∀ e ∈ ds, acceptable cfg m (c - e) = false ∧ acceptable cfg m (c + e) = false := by
  induction ds with
  | nil => simp
  | cons d ds ih =>
    unfold search at h
    split at h
    · cases h
    · next hlo =>
      split at h
      · cases h
      · next hhi =>
        rintro x hx
        rcases List.mem_cons.1 hx with rfl | hx
        · exact ⟨by simpa using hlo, by simpa using hhi⟩
        · exact ih h x hx

/-- Which radii stand before a radius in the list of R83: exactly the smaller ones. -/
theorem radii_split {before after : List Nat} {d : Nat} (h : radii = before ++ d :: after) :
    d ≤ 12 ∧ ∀ e : Nat, e < d → e ∈ before := by
  have hlen := congrArg List.length h
  simp only [radii, List.length_range, List.length_append, List.length_cons] at hlen
  have hd : d = before.length := by
    have := congrArg (fun l : List Nat => l[before.length]?) h
    simp [radii, List.getElem?_range (by omega : before.length < 13)] at this
    exact this.symm
  refine ⟨by omega, fun e he => ?_⟩
  have := congrArg (fun l : List Nat => l[e]?) h
  simp only [radii, List.getElem?_range (by omega : e < 13),
    List.getElem?_append_left (by omega : e < before.length)] at this
  exact List.mem_of_getElem? this.symm

/-- The quantizer reads only `MAX_SEMITONES` of the configuration. -/
theorem quantize_congr {cfg cfg' : Cfg} (h : cfg.maxSemitones = cfg'.maxSemitones) (v : SFix) (m : Mask) :
    quantize cfg v m = quantize cfg' v m := by
  obtain ⟨top, db, snap⟩ := cfg
  obtain ⟨top', db', snap'⟩ := cfg'
  obtain rfl : top = top' := h
  have ha : ∀ s, acceptable ⟨top, db, snap⟩ m s = acceptable ⟨top, db', snap'⟩ m s := fun _ => rfl
  have hc : candidate ⟨top, db, snap⟩ v = candidate ⟨top, db', snap'⟩ v := rfl
  have hs : ∀ c ds, search ⟨top, db, snap⟩ m c ds = search ⟨top, db', snap'⟩ m c ds := by
    intro c ds
    induction ds with
    | nil => rfl
    | cons d ds ih => simp only [search, ha, ih]
  simp only [quantize, hc, hs]

/-- The two things `quantize` can answer: a hit at the first hitting radius `d`, or the candidate where
no radius up to 12 hits. -/
theorem quantize_cases (cfg : Cfg) (v : SFix) (m : Mask) :
    (∃ d : Nat, d ≤ 12 ∧
      (∀ e : Nat, e < d → acceptable cfg m (candidate cfg v - e) = false ∧
        acceptable cfg m (candidate cfg v + e) = false) ∧
      (quantize cfg v m).2 = false ∧
      ((((quantize cfg v m).1.toNat : Int) = candidate cfg v - d ∧
          acceptable cfg m (candidate cfg v - d) = true) ∨
        (((quantize cfg v m).1.toNat : Int) = candidate cfg v + d ∧
          acceptable cfg m (candidate cfg v - d) = false ∧
          acceptable cfg m (candidate cfg v + d) = true))) ∨
    ((∀ e : Nat, e ≤ 12 → acceptable cfg m (candidate cfg v - e) = false ∧
        acceptable cfg m (candidate cfg v + e) = false) ∧
      (quantize cfg v m).2 = true ∧ ((quantize cfg v m).1.toNat : Int) = candidate cfg v) := by
  have hc := candidate_mem cfg v
  have hmax := cfg.maxSemitones.isLt
  cases hs : search cfg m (candidate cfg v) radii with
  | none =>
    refine .inr ⟨fun e he => search_none hs e (by simp [radii]; omega), ?_⟩
    simp only [quantize, hs]
    exact ⟨trivial, ofInt8_toNat (by omega) (by omega)⟩
  | some q =>
    obtain ⟨before, d, after, hl, hbefore, hit⟩ := search_some hs
    obtain ⟨hd, hin⟩ := radii_split hl
    refine .inl ⟨d, hd, fun e he => hbefore e (hin e he), by simp only [quantize, hs], ?_⟩
    simp only [quantize, hs]
    rcases hit with ⟨rfl, hok⟩ | ⟨rfl, hlo, hok⟩
    · have := (acceptable_iff ..).1 hok
      exact .inl ⟨ofInt8_toNat (by omega) (by omega), hok⟩
    · have := (acceptable_iff ..).1 hok
      exact .inr ⟨ofInt8_toNat (by omega) (by omega), hlo, hok⟩

/-- The quantized semitone is in range, on a hit and on a miss. -/
theorem quantize_le (cfg : Cfg) (v : SFix) (m : Mask) :
    (quantize cfg v m).1.toNat ≤ cfg.maxSemitones.val := by
  have hc := candidate_mem cfg v
  rcases quantize_cases cfg v m with ⟨_, _, _, _, ⟨hq, hok⟩ | ⟨hq, _, hok⟩⟩ | ⟨_, _, hq⟩
  · have := (acceptable_iff ..).1 hok; omega
  · have := (acceptable_iff ..).1 hok; omega
  · omega

/-- A mask that is not zero holds some class. -/
theorem exists_class {m : Mask} (h : m ≠ 0) : ∃ k : Nat, k < 12 ∧ m.getLsbD k = true := by
  by_contra hn
  refine h (BitVec.eq_of_getLsbD_eq fun i hi => ?_)
  simp only [not_exists, not_and, Bool.not_eq_true] at hn
  simp [hn i hi]

end Sys2Proof.Machine
end

