-- ==== Sys2Proof/Laws/Safety.lean ====
section
/-! SUPPORT. The range invariant channel by channel, and which registers a command leaves alone. -/

namespace Sys2Proof.Machine

/-- The invariant says the same of every channel. -/
theorem Regs.inRange_iff (cfg : Cfg) (r : Regs) : r.InRange cfg ↔
    ∀ ch, (r.tgt ch).toNat ≤ cfg.maxSemitones.val ∧ (r.cur ch).toNat ≤ cfg.maxSemitones.val * 65536 :=
  ⟨fun h ch => h ch (by cases ch <;> simp), fun h ch _ => h ch⟩

/-- Only a `BYP` writes the flag, the level and the time stamp. -/
theorem afterInstr_not_byp {i : Instr} (s : State) (h : ∀ btn now, i ≠ .byp btn now) :
    (afterInstr i s).regs.byp = s.regs.byp ∧ (afterInstr i s).regs.lvl = s.regs.lvl ∧
      (afterInstr i s).regs.tacc = s.regs.tacc := by
  cases i with
  | byp btn now => exact absurd rfl (h btn now)
  | chu ch value mask tr ctl =>
    cases hb : s.regs.byp
    · simp [afterInstr_chu_run s hb, hb]
    · simp [afterInstr_chu_skip s hb, hb]
  | _ => exact ⟨rfl, rfl, rfl⟩

/-- The commands that are not writers write no register. -/
theorem afterInstr_pure {i : Instr} (s : State) (h : writesRegisters i = false) :
    (afterInstr i s).regs = s.regs := by
  cases i <;> simp [writesRegisters] at h <;> rfl

/-- A run of no accepted press, its first command apart. -/
@[simp] theorem noPressAccepted_cons (i : Instr) (is : List Instr) (s : State) :
    noPressAccepted (i :: is) s = true ↔
      acceptsPress s i = false ∧ noPressAccepted is (afterInstr i s) = true := by
  simp [noPressAccepted]

/-- A command with no accepted press leaves the flag and the time stamp alone. -/
theorem afterInstr_noPress {i : Instr} {s : State} (h : acceptsPress s i = false) :
    (afterInstr i s).regs.byp = s.regs.byp ∧ (afterInstr i s).regs.tacc = s.regs.tacc := by
  cases i with
  | byp btn now => simp [bypassStep_quiet (show fires s.cfg s.regs btn now = false from h)]
  | _ =>
    refine ⟨(afterInstr_not_byp s ?_).1, (afterInstr_not_byp s ?_).2.2⟩ <;> intro _ _ hi <;> cases hi

end Sys2Proof.Machine
end

