-- ==== Sys2Proof/Tests/Slice0.lean ====
section
/-! SUPPORT. Tests of the model against 95_test_vectors.md and the worked examples of 30_encoding.md, and
a witness of the hypotheses of every obligation that has some. A test's name ends in the identifier of
its vector; a witness's name is that of its obligation and clause. -/

namespace Sys2Proof.Tests

open Sys2Proof.Machine

/-! ## Well-formedness: each check refuses an ill-formed term -/

theorem test_wf_every_command : Instr.wf (.qnt 0 0) = true ∧ Instr.wf .rsv7 = true := by decide
theorem test_wf_mask : Mask.wf 0x000#12 = false ∧ Mask.wf 0x800#12 = true := by decide
theorem test_wf_rooted : Mask.rooted 0x800#12 = false ∧ Mask.rooted 0xAB5#12 = true := by decide
theorem test_wf_cfg : Cfg.wf ⟨10, 50, 40⟩ = false ∧ Cfg.wf ⟨11, 50, 40⟩ = true := by decide
theorem test_wf_nop : AsmLine.wf .nop = true := by decide
theorem test_wf_value : AsmLine.wf (.qnt 16777216 0) = false ∧ AsmLine.wf (.qnt (-16777217) 0) = false ∧
    AsmLine.wf (.qnt 16777215 0xFFF) = true ∧ AsmLine.wf (.qnt (-16777216) 0) = true := by decide
theorem test_wf_mask_literal : AsmLine.wf (.qnt 0 0x1000) = false := by decide
theorem test_wf_fix : AsmLine.wf (.gld (-1) 0 0) = false ∧ AsmLine.wf (.gld 0 16777216 0) = false ∧
    AsmLine.wf (.gld 0 16777215 1023) = true := by decide
theorem test_wf_ctl : AsmLine.wf (.gld 0 0 1024) = false := by decide
theorem test_wf_now : AsmLine.wf (.byp .pressed 4294967296) = false ∧
    AsmLine.wf (.byp .pressed 4294967295) = true := by decide
theorem test_wf_ch : AsmLine.wf (.chu 2 0 0 0 0) = false ∧ AsmLine.wf (.chu 1 0 0 0 0) = true := by decide
theorem test_wf_tr : AsmLine.wf (.chu 0 0 0 128 0) = false ∧ AsmLine.wf (.chu 0 0 0 (-129) 0) = false ∧
    AsmLine.wf (.chu 0 0 0 (-128) 0) = true ∧ AsmLine.wf (.chu 0 0 0 127 0) = true := by decide
theorem test_wf_tick : AsmLine.wf (.tick .pressed 0 0 0 0 0 16777216) = false ∧
    AsmLine.wf (.tick .released 4294967295 0xFFF 127 1023 16777215 (-16777216)) = true := by decide

/-! ## Decoding words written out from the spec's formats -/

theorem test_decode_nop_NR1 : decode 0x0000000000000000#64 = .nop := by decide
theorem test_decode_qnt_QN1 : decode (0b001#3 ++ 0xAB5#12 ++ 0#24 ++ 0x0010000#25) = .qnt 0x0010000#25 0xAB5#12 ∧
    decode 0x356A000000010000#64 = .qnt 0x0010000#25 0xAB5#12 := by decide
theorem test_decode_gld_GL20 : decode 0x4FA0ABCDEF123456#64 = .gld 0x123456#24 0xABCDEF#24 500#10 := by decide
theorem test_decode_byp_R75 : decode 0x6000000000000064#64 = .byp .pressed 100#32 ∧
    decode 0x60000001000000C8#64 = .byp .released 200#32 := by decide
theorem test_decode_chu_CH18 :
    decode (0b100#3 ++ 0b1#1 ++ 0xAB5#12 ++ 200#10 ++ 0xFB#8 ++ 0#5 ++ 0x00C7000#25) =
      .chu .ch1 0x00C7000#25 0xAB5#12 0xFB#8 200#10 ∧
    decode 0x9AB5323EC00C7000#64 = .chu .ch1 0x00C7000#25 0xAB5#12 0xFB#8 200#10 := by decide
theorem test_decode_rsv5_NR3 : decode 0xA000000000000000#64 = .rsv5 := by decide
theorem test_decode_rsv6_NR4 : decode 0xC000000000000001#64 = .rsv6 := by decide
theorem test_decode_rsv7_NR6 : decode 0xFFFFFFFFFFFFFFFF#64 = .rsv7 := by decide
theorem test_decode_ignored_bits_EN : decode 0x356BFFFFFE010000#64 = decode 0x356A000000010000#64 ∧
    decode 0x5FFF1400000A0000#64 = decode 0x5FF81400000A0000#64 ∧
    decode 0x7FFFFFFE00000064#64 = decode 0x6000000000000064#64 ∧
    decode 0x94A900033E060000#64 = decode 0x94A9000300060000#64 := by decide
theorem test_table_word : decodeTableWord 64 0xC000000000000001 = some .rsv6 ∧ decodeTableWord 65 0 = none := by
  decide

/-! ## One step, against the vectors -/

/-- The registers and the result after one step on the command word `w`, from the reset state with other
registers. -/
def ran (w : Word) (r : Regs) : Option (Regs × Option Result) :=
  match step ((State.reset.withRegs r).withInput [.command w]) with
  | .next t => some (t.regs, t.res)
  | .fault _ => none
  | .refused _ => none

/-- The state of rows BY6 and CH9. -/
def bypassed : Regs := ⟨0x0A0000#24, 0x050000#24, 20#8, 7#8, true, .released, 100#32⟩

/-- What the ports show in that state. -/
def busyPorts : Ports := (State.reset.withRegs bypassed).ports

theorem test_nop_NR2 :
    ran 0x1FFFFFFFFFFFFFFF#64 bypassed = some (bypassed, some ⟨0, ⟨false, false, false, false⟩⟩) := by decide
theorem test_qnt_QN12 : ran 0x20040000003C0000#64 bypassed =
    some (bypassed, some ⟨0x310000#24, ⟨false, false, false, false⟩⟩) := by decide
theorem test_qnt_QN14 : ran 0x2000000000074000#64 bypassed =
    some (bypassed, some ⟨0x070000#24, ⟨false, false, false, true⟩⟩) := by decide
theorem test_gld_GL16 : ran 0x5FF8000000FFFFFF#64 bypassed =
    some (bypassed, some ⟨0xF83E0F#24, ⟨false, false, false, false⟩⟩) := by decide
theorem test_gld_GL18 : ran 0x4200000000000005#64 bypassed =
    some (bypassed, some ⟨0x000004#24, ⟨false, false, false, false⟩⟩) := by decide
theorem test_byp_BY6 : ran 0x600000000000012C#64 bypassed =
    some (⟨0x140000#24, 0x070000#24, 20#8, 7#8, false, .pressed, 300#32⟩,
      some ⟨0x000000#24, ⟨false, false, true, false⟩⟩) := by decide
theorem test_byp_BY9 :
    ran 0x6000000000000030#64 ⟨0x0A0000#24, 0, 20#8, 0, false, .released, 4294967280#32⟩ =
      some (⟨0x0A0000#24, 0, 20#8, 0, true, .pressed, 48#32⟩,
        some ⟨0x000001#24, ⟨false, false, true, false⟩⟩) := by decide
theorem test_chu_CH18 :
    ran 0x9AB5323EC00C7000#64 { Regs.reset with cur1 := 0x0C0000#24, tgt1 := 12#8 } =
      some ({ Regs.reset with cur1 := 0x0B4925#24, tgt1 := 7#8 },
        some ⟨0x0B4925#24, ⟨false, false, false, false⟩⟩) := by decide
theorem test_chu_CH10 : ran 0x9000000000280000#64 bypassed =
    some (bypassed, some ⟨0x050000#24, ⟨false, true, false, false⟩⟩) := by decide
theorem test_rsv5_NR7 :
    ran 0xBFFFFFFFFFFFFFFF#64 bypassed = some (bypassed, some ⟨0, ⟨true, false, false, false⟩⟩) := by decide
theorem test_rsv6_NR4 :
    ran 0xC000000000000001#64 bypassed = some (bypassed, some ⟨0, ⟨true, false, false, false⟩⟩) := by decide
theorem test_rsv7_NR5 :
    ran 0xE000000000000000#64 bypassed = some (bypassed, some ⟨0, ⟨true, false, false, false⟩⟩) := by decide

/-! ## Ports, flags, masks and the assembler's text -/

/-- The state of BY6 on the ports of R30. -/
theorem test_ports_R30 : busyPorts.cur0 = 0x0A0000#24 ∧ busyPorts.cur1 = 0x050000#24 ∧ busyPorts.tgt0 = 20#8 ∧
    busyPorts.tgt1 = 7#8 ∧ busyPorts.bypass = true ∧ busyPorts.result = none := by decide

theorem test_flags_R72 : ResFlags.toBits .illegal = 0b1000#4 ∧ ResFlags.toBits .skipped = 0b0100#4 ∧
    ResFlags.toBits (.ofTog true) = 0b0010#4 ∧ ResFlags.toBits (.ofMiss true) = 0b0001#4 := by decide
theorem test_scales_R66 : Scale.major = 0xAB5#12 ∧ Scale.pentatonicMinor = 0x4A9#12 ∧
    Scale.naturalMinor = 0x5AD#12 ∧ Scale.harmonicMinor = 0x9AD#12 ∧ Scale.pentatonicMajor = 0x295#12 ∧
    Scale.dorian = 0x6AD#12 ∧ Scale.phrygian = 0x5AB#12 := by decide
theorem test_assemble_chu_CH18 :
    assembleLine "CHU 1, 12.4375, 0xAB5, -5, 200  ; every field".toList = some [0x9AB5323EC00C7000#64] := by
  decide
theorem test_assemble_tick_P3 : assembleLine "TICK P, 300, 0xFFF, 0, 1023, 30.0, 3.0".toList =
    some [0x600000000000012C#64, 0x8FFFFFC0001E0000#64, 0x9FFFFFC000030000#64] := by decide
theorem test_assemble_brace_list :
    assembleLine ("QNT 1.0, ".toList ++ [braceOpen] ++ "1,0,1,0,1,1,0,1,0,1,0,1".toList ++ [braceClose]) =
      some [0x356A000000010000#64] := by decide
theorem test_assemble_raw_QN5 : assembleLine "QNT #0x0017FFF, 0xAB5".toList = some [0x356A000000017FFF#64] := by
  decide
theorem test_assemble_rejects : assembleLine "QNT 0.1, 0xAB5".toList = none ∧
    assembleLine "CHU 2, 1.0, 0xAB5, 0, 0".toList = none ∧ assembleLine "; nothing".toList = some [] := by decide

/-! ## Witnesses: reset, steps and runs -/

/-- A state that differs from reset in every register. -/
def busyState : State := State.reset.withRegs bypassed

theorem witness_ResetInputReplacesTheRegisters :
    (busyState.withInput [.reset, .command 0]).input = .reset :: [.command 0] := by decide
theorem witness_StepRunsTheNextCommand :
    (busyState.withInput [.command 0x600000000000012C#64]).input = .command 0x600000000000012C#64 :: [] := by
  decide
theorem witness_StepWithoutInputChangesNoRegister : busyState.input = [] := by decide
theorem witness_RunExecutesThePresentedWordsInOrder :
    (busyState.withInput [.command 1, .command 2, .reset]).input =
      [(1 : Word), 2].map .command ++ [.reset] ∧ [(1 : Word), 2] ≠ [] := by decide

/-! ## Witnesses: encoding -/

theorem witness_DecodeOfEncodeIsTheInstruction :
    (Instr.chu .ch1 0x1FFFFFF#25 0xFFF#12 0x80#8 1023#10).wf = true := by decide
theorem witness_IgnoredBitsDoNotAffectDecoding :
    0x356A000000010000#64 &&& (decode 0x356A000000010000#64).usedBits =
      0x356BFFFFFE010000#64 &&& (decode 0x356A000000010000#64).usedBits ∧
    0x356A000000010000#64 ≠ 0x356BFFFFFE010000#64 := by decide
theorem witness_OperandEncodingExamples : (List.replicate 12 true).length = 12 := by decide
theorem witness_AssemblerKeepsEveryOperand_refused : AsmLine.wf (.chu 0 0 0 128 0) = false := by decide
theorem witness_AssemblerKeepsEveryOperand_nop : AsmLine.wf .nop = true := by decide
theorem witness_AssemblerKeepsEveryOperand_qnt : AsmLine.wf (.qnt (-16777216) 0xFFF) = true := by decide
theorem witness_AssemblerKeepsEveryOperand_gld : AsmLine.wf (.gld 16777215 0 1023) = true := by decide
theorem witness_AssemblerKeepsEveryOperand_byp : AsmLine.wf (.byp .released 4294967295) = true := by decide
theorem witness_AssemblerKeepsEveryOperand_chu : AsmLine.wf (.chu 1 16777215 0 (-128) 0) = true := by decide
theorem witness_AssemblerKeepsEveryOperand_tick :
    AsmLine.wf (.tick .pressed 0 0xFFF 127 1023 (-16777216) 16777215) = true := by decide

/-! ## Witnesses: `NOP` and the reserved opcodes -/

theorem witness_NopChangesNothing : (0x1FFFFFFFFFFFFFFF#64).extractLsb' 61 3 = 0b000#3 := by decide
theorem witness_ReservedOpcodesReportIll_rsv5 : (0xBFFFFFFFFFFFFFFF#64).extractLsb' 61 3 = 0b101#3 ∧
    Instr.rsv5 ∈ [Instr.rsv5, .rsv6, .rsv7] := by decide
theorem witness_ReservedOpcodesReportIll_rsv6 : (0xC000000000000001#64).extractLsb' 61 3 = 0b110#3 ∧
    Instr.rsv6 ∈ [Instr.rsv5, .rsv6, .rsv7] := by decide
theorem witness_ReservedOpcodesReportIll_rsv7 : (0xFFFFFFFFFFFFFFFF#64).extractLsb' 61 3 = 0b111#3 ∧
    Instr.rsv7 ∈ [Instr.rsv5, .rsv6, .rsv7] := by decide

/-! ## Witnesses: the quantizer -/

/-- `REF` with another top of the range. -/
def cfgTop (n : Fin 256) : Cfg := ⟨n, 50, 40⟩

/-- `ok(s)` as the obligations write it. -/
abbrev okAt (cfg : Cfg) (m : Mask) (s : Int) : Prop :=
  0 ≤ s ∧ s ≤ (cfg.maxSemitones.val : Int) ∧ m.getLsbD (s % 12).toNat = true

theorem witness_RoundingIsHalfAwayFromZero_up : 0 ≤ (0x0000000#25 : SFix).toInt := by decide
theorem witness_RoundingIsHalfAwayFromZero_down : (0x1FFFFFF#25 : SFix).toInt < 0 := by decide
theorem witness_CandidateIsTheClampedRounding_negative : (0x1FFFFFF#25 : SFix).toInt < 0 := by decide
theorem witness_CandidateIsTheClampedRounding_zero : rhaz (0x0007FFF#25 : SFix).toInt = 0 := by decide
theorem witness_CandidateIsTheClampedRounding_top :
    (Cfg.ref.maxSemitones.val : Int) ≤ rhaz (0x03C0000#25 : SFix).toInt := by decide
theorem witness_RoundingModeCannotBeObserved_negative : (0x1FFFFFF#25 : SFix).toInt < 0 := by decide
theorem witness_RoundingModeCannotBeObserved_positive : 0 ≤ (0x0000000#25 : SFix).toInt := by decide
/-- QN1: a hit below at radius 1. -/
theorem witness_SearchReturnsTheFirstHitBelowBeforeAbove_below : 1 ≤ 12 ∧
    (∀ e : Nat, e < 1 → ¬ okAt Cfg.ref 0xAB5#12 (candidate Cfg.ref 0x0010000#25 - e) ∧
      ¬ okAt Cfg.ref 0xAB5#12 (candidate Cfg.ref 0x0010000#25 + e)) ∧
    okAt Cfg.ref 0xAB5#12 (candidate Cfg.ref 0x0010000#25 - 1) := by decide
/-- QN13: a hit above at radius 11, the largest there is. -/
theorem witness_SearchReturnsTheFirstHitBelowBeforeAbove_above : 11 ≤ 12 ∧
    (∀ e : Nat, e < 11 → ¬ okAt Cfg.ref 0x800#12 (candidate Cfg.ref 0 - e) ∧
      ¬ okAt Cfg.ref 0x800#12 (candidate Cfg.ref 0 + e)) ∧
    ¬ okAt Cfg.ref 0x800#12 (candidate Cfg.ref 0 - 11) ∧ okAt Cfg.ref 0x800#12 (candidate Cfg.ref 0 + 11) := by
  decide
/-- QN26: no hit, with a mask that is not empty. -/
theorem witness_SearchReturnsTheFirstHitBelowBeforeAbove_miss :
    ∀ d : Nat, d ≤ 12 → ¬ okAt (cfgTop 10) 0x800#12 (candidate (cfgTop 10) 0 - d) ∧
      ¬ okAt (cfgTop 10) 0x800#12 (candidate (cfgTop 10) 0 + d) := by decide
theorem witness_QuantizerPropertiesOfTheSource_empty : (0x000#12 : Mask) = 0 := by decide
/-- QN11: an in-scale integer. -/
theorem witness_QuantizerPropertiesOfTheSource_idempotent : 0 ≤ rhaz (0x03B0000#25 : SFix).toInt ∧
    rhaz (0x03B0000#25 : SFix).toInt ≤ (Cfg.ref.maxSemitones.val : Int) ∧
    (0xAB5#12 : Mask).getLsbD (rhaz (0x03B0000#25 : SFix).toInt % 12).toNat = true := by decide
/-- QN16: a tie at radius 6 whose lower value is in range. -/
theorem witness_QuantizerPropertiesOfTheSource_tie : 6 ≤ 12 ∧ 0 ≤ rhaz (0x0060000#25 : SFix).toInt ∧
    rhaz (0x0060000#25 : SFix).toInt ≤ 60 ∧
    (∀ e : Nat, e < 6 →
      ¬ (0 ≤ rhaz (0x0060000#25 : SFix).toInt - e ∧
        (0x001#12 : Mask).getLsbD ((rhaz (0x0060000#25 : SFix).toInt - e) % 12).toNat = true) ∧
      ¬ (rhaz (0x0060000#25 : SFix).toInt + e ≤ 60 ∧
        (0x001#12 : Mask).getLsbD ((rhaz (0x0060000#25 : SFix).toInt + e) % 12).toNat = true)) ∧
    (0x001#12 : Mask).getLsbD ((rhaz (0x0060000#25 : SFix).toInt - 6) % 12).toNat = true ∧
    (0x001#12 : Mask).getLsbD ((rhaz (0x0060000#25 : SFix).toInt + 6) % 12).toNat = true ∧
    rhaz (0x0060000#25 : SFix).toInt + 6 ≤ 60 ∧ 0 ≤ rhaz (0x0060000#25 : SFix).toInt - 6 := by decide
/-- A tie at radius 1 whose lower value, `-1`, is out of range. -/
theorem witness_QuantizerPropertiesOfTheSource_tie_below_range : 1 ≤ 12 ∧ 0 ≤ rhaz (0x0000000#25 : SFix).toInt ∧
    rhaz (0x0000000#25 : SFix).toInt ≤ 60 ∧
    (∀ e : Nat, e < 1 →
      ¬ (0 ≤ rhaz (0x0000000#25 : SFix).toInt - e ∧
        (0x802#12 : Mask).getLsbD ((rhaz (0x0000000#25 : SFix).toInt - e) % 12).toNat = true) ∧
      ¬ (rhaz (0x0000000#25 : SFix).toInt + e ≤ 60 ∧
        (0x802#12 : Mask).getLsbD ((rhaz (0x0000000#25 : SFix).toInt + e) % 12).toNat = true)) ∧
    (0x802#12 : Mask).getLsbD ((rhaz (0x0000000#25 : SFix).toInt - 1) % 12).toNat = true ∧
    (0x802#12 : Mask).getLsbD ((rhaz (0x0000000#25 : SFix).toInt + 1) % 12).toNat = true ∧
    rhaz (0x0000000#25 : SFix).toInt + 1 ≤ 60 ∧ rhaz (0x0000000#25 : SFix).toInt - 1 < 0 := by decide
theorem witness_QuantizerPropertiesOfTheSource_scenarios :
    1 ≤ ((cfgTop 1).maxSemitones.val : Int) ∧ 6 ≤ ((cfgTop 6).maxSemitones.val : Int) := by decide
theorem witness_FallbackIsUnreachableForWellFormedScales_rooted : Mask.rooted 0x001#12 = true := by decide
theorem witness_FallbackIsUnreachableForWellFormedScales_wf :
    Mask.wf 0x800#12 = true ∧ (cfgTop 11).wf = true := by decide
theorem witness_FallbackIsUnreachableForWellFormedScales_empty : (0x000#12 : Mask) = 0 := by decide
theorem witness_FallbackIsUnreachableForWellFormedScales_instances :
    (cfgTop 5).maxSemitones = 5 ∧ (cfgTop 10).maxSemitones = 10 ∧ (cfgTop 11).maxSemitones = 11 := by decide
theorem witness_QuantizeReturnsTheNearestInScaleSemitone_hit :
    (quantize Cfg.ref 0x03C0000#25 0x002#12).2 = false ∧ okAt Cfg.ref 0x002#12 1 := by decide
theorem witness_QuantizeReturnsTheNearestInScaleSemitone_miss :
    ∀ e : Nat, e < 12 → ¬ okAt (cfgTop 10) 0x800#12 (candidate (cfgTop 10) 0 - e) ∧
      ¬ okAt (cfgTop 10) 0x800#12 (candidate (cfgTop 10) 0 + e) := by decide
theorem witness_QuantizeReturnsTheNearestInScaleSemitone_example :
    2 ≤ ((cfgTop 2).maxSemitones.val : Int) := by decide
theorem witness_QntReturnsTheQuantizedSemitone : (0x356A000000010000#64).extractLsb' 61 3 = 0b001#3 ∧
    Cfg.ref.maxSemitones = 60 ∧ (0x1FFFFFF#25 : SFix).toInt < 0 := by decide

/-! ## Witnesses: the glide filter -/

theorem witness_StepCountIsTheLinearMap : (1022#10 : Ctl).toNat ≤ 1022 ∧
    (31#10 : Ctl).toNat ≤ (32#10 : Ctl).toNat ∧ Cfg.ref.snapThreshold.val ≤ (40#10 : Ctl).toNat ∧
    (63#10 : Ctl).toNat ≤ 63 := by decide
theorem witness_GlideDivisionTruncatesTowardZero : 1 ≤ 1 ∧ (0 : Int) ≤ 0 ∧ (-1 : Int) < 0 := by decide
theorem witness_GlideFollowsTheFormula_snap : (39#10 : Ctl).toNat < Cfg.ref.snapThreshold.val := by decide
theorem witness_GlideFollowsTheFormula_all_snap : (Cfg.mk 60 50 1024).snapThreshold.val = 1024 := by decide
theorem witness_GlideFollowsTheFormula_move : Cfg.ref.snapThreshold.val ≤ (40#10 : Ctl).toNat := by decide
theorem witness_GlideStaysBetweenCurrentAndTarget :
    (0x3C0000#24 : Fix).toNat ≤ Cfg.ref.maxSemitones.val * 65536 ∧
      (0x000000#24 : Fix).toNat ≤ Cfg.ref.maxSemitones.val * 65536 := by decide
theorem witness_GlideApproachesWithoutOvershoot : Cfg.ref.snapThreshold.val ≤ (1023#10 : Ctl).toNat ∧
    steps 1023#10 ≤ (((0x0A0021#24 : Fix).toNat : Int) - (0x0A0000#24 : Fix).toNat).natAbs := by decide
theorem witness_RepeatedGlideSettlesInTheStallBand : Cfg.ref.snapThreshold.val ≤ (1023#10 : Ctl).toNat ∧
    (((0x0A0020#24 : Fix).toNat : Int) - (0x0A0000#24 : Fix).toNat).natAbs < steps 1023#10 := by decide
theorem witness_GldReturnsTheGlidedValue : (0x5FF81400000A0000#64).extractLsb' 61 3 = 0b010#3 ∧
    (((0x0A0020#24 : Fix).toNat : Int) - (0x0A0000#24 : Fix).toNat).natAbs ≤ 32 := by decide

/-! ## Witnesses: the bypass controller -/

/-- `bypassed` with bypass off. -/
def running : Regs := { bypassed with byp := false }

/-- `bypassed` with the button held. -/
def held : Regs := { bypassed with lvl := .pressed }

theorem witness_ElapsedTimeSurvivesAClockWrap : 4294967295 < 2 ^ 32 := by decide
theorem witness_BypStepsTheBypassController_word : (0x6000000000000064#64).extractLsb' 61 3 = 0b011#3 := by decide
/-- BY8: the press fires, with bypass ON. -/
theorem witness_BypStepsTheBypassController_fire : Cfg.ref.debounceMs.val < (151#32 - bypassed.tacc).toNat ∧
    Level.pressed = .pressed ∧ bypassed.lvl = .released ∧ bypassed.byp = true := by decide
/-- BY7: one millisecond earlier it does not. -/
theorem witness_BypStepsTheBypassController_quiet :
    ¬ (Cfg.ref.debounceMs.val < (150#32 - bypassed.tacc).toNat ∧ Level.pressed = .pressed ∧
      bypassed.lvl = .released) := by decide
theorem witness_BypassTransitionTable_rows :
    (bypassed.lvl = .released ∧ Level.released = .released) ∧
    (bypassed.lvl = .released ∧ ¬ Cfg.ref.debounceMs.val < (elapsed 150#32 bypassed.tacc).toNat) ∧
    (bypassed.lvl = .released ∧ Cfg.ref.debounceMs.val < (elapsed 151#32 bypassed.tacc).toNat ∧
      bypassed.byp = true) ∧
    (running.lvl = .released ∧ Cfg.ref.debounceMs.val < (elapsed 151#32 running.tacc).toNat ∧
      running.byp = false) ∧
    (held.lvl = .pressed ∧ Level.pressed = .pressed) ∧ (held.lvl = .pressed ∧ Level.released = .released) := by
  decide
theorem witness_LockoutPhaseAcceptsNoPress : debouncePhase Cfg.ref bypassed 150#32 = .justToggled ∧
    debouncePhase Cfg.ref bypassed 151#32 = .idle ∧ bypassed.lvl = .released := by decide
theorem witness_PressInsideTheLockoutIsLost :
    (elapsed 150#32 busyState.regs.tacc).toNat ≤ busyState.cfg.debounceMs.val ∧
      (∀ i ∈ [Instr.byp .pressed 1000#32, .nop], isRelease i = false) ∧
      busyState.cfg.debounceMs.val < (elapsed 151#32 busyState.regs.tacc).toNat := by decide
/-- P4: the press at 100 toggles; the edges at 110, 120 and 150 lie in its interval. -/
theorem witness_EdgesWithinTheIntervalGiveOneToggle :
    exec (.byp .pressed 100#32) State.reset = .next (afterInstr (.byp .pressed 100#32) State.reset) ∧
      (afterInstr (.byp .pressed 100#32) State.reset).regs.byp ≠ State.reset.regs.byp ∧
      WithinLockout State.reset.cfg 100#32
        [.byp .released 110#32, .byp .pressed 120#32, .byp .released 150#32] := by
  refine ⟨rfl, by decide, fun i hi now h => ?_⟩
  simp only [List.mem_cons, List.not_mem_nil, or_false] at hi
  rcases hi with rfl | rfl | rfl <;> cases h <;> decide
theorem witness_StartUpLockoutAndHeldButton_lockout :
    WithinLockout Cfg.ref 0 [.byp .pressed 10#32, .byp .released 20#32, .byp .pressed 50#32] := by
  intro i hi now h
  simp only [List.mem_cons, List.not_mem_nil, or_false] at hi
  rcases hi with rfl | rfl | rfl <;> cases h <;> decide
theorem witness_StartUpLockoutAndHeldButton_held :
    ∀ i ∈ [Instr.byp .pressed 60#32, .qnt 0 0], isRelease i = false := by decide

/-! ## Witnesses: the channel update -/

theorem witness_ChuUpdatesItsChannel_word : (0x94A9000300060000#64).extractLsb' 61 3 = 0b100#3 := by decide
theorem witness_ChuUpdatesItsChannel_modes :
    Chan.ch0 ≠ .ch1 ∧ bypassed.byp = true ∧ running.byp = false ∧ (39#10 : Ctl).toNat < 40 := by decide
theorem witness_StoredTargetNeedNotBeInScale : (quantize Cfg.ref 0x0060000#25 0x4A9#12).2 = false ∧
    (12 : Int) ∣ (0x0C#8 : Tr).toInt ∧
    0 ≤ ((quantize Cfg.ref 0x0060000#25 0x4A9#12).1.toNat : Int) + (0x0C#8 : Tr).toInt ∧
    ((quantize Cfg.ref 0x0060000#25 0x4A9#12).1.toNat : Int) + (0x0C#8 : Tr).toInt ≤
      Cfg.ref.maxSemitones.val := by decide
/-- A press inside the lockout, held past its end (as in step 7 of P3) while the inputs move, and a release. -/
theorem witness_ChannelsFreezeUnderBypass : busyState.regs.byp = true ∧
    noPressAccepted [.byp .pressed 150#32, .chu .ch0 0x02D0000#25 0xFFF#12 0#8 48#10, .byp .pressed 1000#32,
      .chu .ch1 0x0030000#25 0xFFF#12 0#8 48#10, .byp .released 1010#32] busyState = true := by decide
theorem witness_ChannelsAreIndependent :
    let other := busyState.withRegs { bypassed with cur0 := 0, tgt0 := 0 }
    busyState.cfg = other.cfg ∧ busyState.regs.byp = other.regs.byp ∧
      busyState.regs.cur .ch1 = other.regs.cur .ch1 ∧ busyState.regs.tgt .ch1 = other.regs.tgt .ch1 ∧
      Chan.ch0 ≠ .ch1 := by decide

/-! ## Witnesses: ticks -/

/-- Tick 5 of P3. -/
def lastTick : Tick := ⟨.pressed, 300#32, 0xFFF#12, 0#8, 1023#10, 0x01E0000#25, 0x0030000#25⟩

theorem witness_ReenablingTickGlidesFromTheResyncedValue : busyState.regs.byp = true ∧
    fires busyState.cfg busyState.regs lastTick.btn lastTick.now = true := by decide
/-- A tick that turns bypass off and quantizes to the target a channel already has. -/
theorem witness_ReenablingTickGlidesFromTheResyncedValue_same_target :
    (runInstrs ({ lastTick with value0 := 0x0140000#25 } : Tick).expand busyState).regs.tgt .ch0 =
      busyState.regs.tgt .ch0 := by decide
theorem witness_ReenablingTickGlidesFromTheResyncedValue_example :
    bypassed.cur0 = 0x0A0000#24 ∧ bypassed.tgt0 = 20#8 ∧ bypassed.byp = true ∧
      fires Cfg.ref bypassed .pressed 300#32 = true := by decide
theorem witness_ChuBeforeBypInATickActsOnTheOldMode_off :
    fires busyState.cfg busyState.regs lastTick.btn lastTick.now = true ∧ busyState.regs.byp = true := by decide
theorem witness_ChuBeforeBypInATickActsOnTheOldMode_on :
    fires Cfg.ref running lastTick.btn lastTick.now = true ∧ running.byp = false := by decide

/-! ## Witnesses: the whole machine -/

theorem witness_StepKeepsTheRegistersInRange : busyState.InRange ∧ step busyState = .next busyState.clearResult := by
  exact ⟨by decide, rfl⟩
theorem witness_RegistersChangeOnlyByTheirWriters_chu :
    let i := Instr.chu .ch0 0x0140000#25 0xFFF#12 1#8 0#10
    let s := State.reset
    exec i s = .next (afterInstr i s) ∧ (afterInstr i s).regs.cur .ch0 ≠ s.regs.cur .ch0 ∧
      (afterInstr i s).regs.tgt .ch0 ≠ s.regs.tgt .ch0 := ⟨rfl, by decide, by decide⟩
theorem witness_RegistersChangeOnlyByTheirWriters_byp :
    let i := Instr.byp .pressed 300#32
    let s := busyState
    exec i s = .next (afterInstr i s) ∧ (afterInstr i s).regs.cur .ch1 ≠ s.regs.cur .ch1 ∧
      (afterInstr i s).regs.byp ≠ s.regs.byp ∧ (afterInstr i s).regs.tacc ≠ s.regs.tacc ∧
      (afterInstr i s).regs.lvl ≠ s.regs.lvl := ⟨rfl, by decide, by decide, by decide, by decide⟩
theorem witness_NothingButTheRegistersIsCarriedOver :
    let s' := (busyState.respond ⟨1, ⟨true, true, true, true⟩⟩).withInput [.reset]
    busyState.cfg = s'.cfg ∧ busyState.regs = s'.regs ∧ busyState ≠ s' ∧
      exec (.gld 0 1 0) busyState = .next (afterInstr (.gld 0 1 0) busyState) ∧
      exec (.gld 0 1 0) s' = .next (afterInstr (.gld 0 1 0) s') ∧ writesRegisters (.gld 0 1 0) = false :=
  ⟨by decide, by decide, by decide, rfl, rfl, by decide⟩
theorem witness_PureCommandsChangeNoOutcome :
    FollowsTicks (lastTick.expand ++ [.qnt 0 0, .nop, .rsv5] ++ lastTick.expand) [lastTick, lastTick] := by
  unfold FollowsTicks; decide

/-! ## Witnesses: the port -/

/-- The block at rest after reset. -/
def idlePort : PortState := ⟨State.reset, none, 0⟩

theorem witness_ResetWinsAtThePort :
    (Pins.mk true true 0x6000000000000064#64).rst = true ∧ (Pins.mk false true 0#64).rst = false ∧
      (Pins.mk false true 0#64).cmdValid = true := by decide
theorem witness_AcceptedCommandFinishesAtThePort_waiting :
    idlePort.accepts ⟨false, true, 0x6000000000000064#64⟩ = true ∧ (∀ y ∈ ([] : List Pins), y.rst = false) ∧
      ([] : List Pins).length ≤ Config.extraCycles idlePort.count :=
  ⟨by decide, by simp, Nat.zero_le _⟩
theorem witness_AcceptedCommandFinishesAtThePort_done :
    let xs := List.replicate (Config.extraCycles idlePort.count + 1) (Pins.mk false false 0)
    idlePort.accepts ⟨false, true, 0x6000000000000064#64⟩ = true ∧ (∀ y ∈ xs, y.rst = false) ∧
      xs.length = Config.extraCycles idlePort.count + 1 :=
  ⟨by decide, fun y h => by rw [List.eq_of_mem_replicate h], List.length_replicate⟩
theorem witness_PortRefinesTheCommandMachine : idlePort.busy = none ∧
    ∀ x ∈ [Pins.mk false true 1#64, ⟨false, false, 0⟩, ⟨false, true, 2#64⟩], x.rst = false := by decide

end Sys2Proof.Tests
end

namespace Sys2Proof.Machine

/-! ## Reset and the idle step -/

/-- Settles O1. -/
theorem resetLeavesTheListedRegisters : Obligations.ResetLeavesTheListedRegisters :=
  ⟨fun cfg => by simp, by simp [State.reset]⟩

/-- A step with nothing presented only lowers the result. -/
theorem step_idle {s : State} (h : s.input = []) : step s = .next s.clearResult := by
  simp [step, h]

/-- Settles O4. -/
theorem stepWithoutInputChangesNoRegister : Obligations.StepWithoutInputChangesNoRegister :=
  fun s h => ⟨s.clearResult, step_idle h, rfl, rfl, h, rfl⟩

/-! ## The registers' writers

What a `BYP` leaves in each register; from it, which command can have changed a register; and that nothing
but the registers is carried from one command to the next. -/

/-! ### The registers after a controller step -/

section
variable (cfg : Cfg) (r : Regs) (btn : Level) (now : Time) (ch : Chan)

/-- The three things a controller step can do: record the level, turn bypass ON, turn it OFF. -/
theorem bypassStep_cases :
    (fires cfg r btn now = false ∧ bypassStep cfg r btn now = { r with lvl := btn }) ∨
    (fires cfg r btn now = true ∧ r.byp = false ∧
      bypassStep cfg r btn now = { r with byp := true, tacc := now, lvl := btn }) ∨
    (fires cfg r btn now = true ∧ r.byp = true ∧
      bypassStep cfg r btn now = { r.resync with byp := false, tacc := now, lvl := btn }) := by
  cases hf : fires cfg r btn now
  · exact .inl ⟨rfl, bypassStep_quiet hf⟩
  · cases hb : r.byp
    · exact .inr (.inl ⟨rfl, rfl, bypassStep_on hf hb⟩)
    · exact .inr (.inr ⟨rfl, rfl, bypassStep_off hf hb⟩)

@[simp] theorem bypassStep_lvl : (bypassStep cfg r btn now).lvl = btn := rfl

theorem bypassStep_byp : (bypassStep cfg r btn now).byp = (fires cfg r btn now ^^ r.byp) := by
  rcases bypassStep_cases cfg r btn now with ⟨hf, h⟩ | ⟨hf, hb, h⟩ | ⟨hf, hb, h⟩
  · simp [h, hf]
  · simp [h, hf, hb]
  · simp [h, hf, hb]

theorem bypassStep_tacc :
    (bypassStep cfg r btn now).tacc = if fires cfg r btn now then now else r.tacc := by
  rcases bypassStep_cases cfg r btn now with ⟨hf, h⟩ | ⟨hf, _, h⟩ | ⟨hf, _, h⟩ <;> simp [h, hf]

@[simp] theorem bypassStep_tgt : (bypassStep cfg r btn now).tgt ch = r.tgt ch := by
  rcases bypassStep_cases cfg r btn now with ⟨_, h⟩ | ⟨_, _, h⟩ | ⟨_, _, h⟩ <;> rw [h] <;> rfl

theorem bypassStep_cur : (bypassStep cfg r btn now).cur ch =
    if fires cfg r btn now && r.byp then toFix (r.tgt ch) else r.cur ch := by
  rcases bypassStep_cases cfg r btn now with ⟨hf, h⟩ | ⟨hf, hb, h⟩ | ⟨hf, hb, h⟩
  · rw [h, hf]; rfl
  · rw [h, hf, hb]; rfl
  · rw [h, hf, hb]; exact r.resync_cur ch

end

/-! ### Who can have changed a register -/

section
variable (i : Instr) (s : State) (ch : Chan)

/-- The three things a command can do to a channel's current value: leave it, glide it by a `CHU` on that
channel, resync it by a `BYP` that turns bypass off. -/
theorem afterInstr_cur_cases :
    (afterInstr i s).regs.cur ch = s.regs.cur ch ∨
    (∃ value mask tr ctl, i = .chu ch value mask tr ctl ∧ s.regs.byp = false ∧
      (afterInstr i s).regs.cur ch = channelCurrent s.cfg (s.regs.cur ch) value mask tr ctl) ∨
    (∃ btn now, i = .byp btn now ∧ s.regs.byp = true ∧ (afterInstr i s).regs.byp = false ∧
      (afterInstr i s).regs.cur ch = toFix (s.regs.tgt ch)) := by
  cases i with
  | byp btn now =>
    cases hr : fires s.cfg s.regs btn now && s.regs.byp
    · exact .inl (by simp [bypassStep_cur, hr])
    · obtain ⟨hf, hb⟩ := Bool.and_eq_true_iff.1 hr
      exact .inr (.inr ⟨btn, now, rfl, hb, by simp [bypassStep_byp, hf, hb],
        by simp [bypassStep_cur, hf, hb]⟩)
  | chu c value mask tr ctl =>
    cases hb : s.regs.byp
    · rw [afterInstr_chu_run s hb]
      rcases eq_or_ne ch c with rfl | hne
      · exact .inr (.inl ⟨value, mask, tr, ctl, rfl, rfl, by simp⟩)
      · exact .inl (Regs.setChannel_cur_other _ _ _ _ _ hne)
    · exact .inl (by rw [afterInstr_chu_skip s hb]; rfl)
  | _ => exact .inl rfl

/-- The two things a command can do to a channel's target: leave it, or write it by a `CHU` on that
channel. -/
theorem afterInstr_tgt_cases :
    (afterInstr i s).regs.tgt ch = s.regs.tgt ch ∨
    (∃ value mask tr ctl, i = .chu ch value mask tr ctl ∧ s.regs.byp = false ∧
      (afterInstr i s).regs.tgt ch = channelTarget s.cfg value mask tr) := by
  cases i with
  | byp btn now => exact .inl (by simp)
  | chu c value mask tr ctl =>
    cases hb : s.regs.byp
    · rw [afterInstr_chu_run s hb]
      rcases eq_or_ne ch c with rfl | hne
      · exact .inr ⟨value, mask, tr, ctl, rfl, rfl, by simp⟩
      · exact .inl (Regs.setChannel_tgt_other _ _ _ _ _ hne)
    · exact .inl (by rw [afterInstr_chu_skip s hb]; rfl)
  | _ => exact .inl rfl

/-- A command either is a `BYP` or leaves the flag, the level and the time stamp alone. -/
theorem byp_or_afterInstr_controller :
    (∃ btn now, i = .byp btn now) ∨
    ((afterInstr i s).regs.byp = s.regs.byp ∧ (afterInstr i s).regs.lvl = s.regs.lvl ∧
      (afterInstr i s).regs.tacc = s.regs.tacc) :=
  or_iff_not_imp_left.2 fun h => afterInstr_not_byp s fun btn now hi => h ⟨btn, now, hi⟩

end

/-- A command that changed the flag is a `BYP` with an accepted press. -/
theorem fires_of_afterInstr_byp_ne {i : Instr} {s : State} (h : (afterInstr i s).regs.byp ≠ s.regs.byp) :
    ∃ btn now, i = .byp btn now ∧ fires s.cfg s.regs btn now = true := by
  rcases byp_or_afterInstr_controller i s with ⟨btn, now, rfl⟩ | ⟨hbyp, _, _⟩
  · exact ⟨btn, now, rfl, by rw [fires_eq_toggled]; exact decide_eq_true h⟩
  · exact absurd hbyp h

/-- A command that changed the time stamp is a `BYP` with an accepted press at the new time stamp. -/
theorem fires_of_afterInstr_tacc_ne {i : Instr} {s : State}
    (h : (afterInstr i s).regs.tacc ≠ s.regs.tacc) :
    ∃ btn, i = .byp btn (afterInstr i s).regs.tacc ∧
      fires s.cfg s.regs btn (afterInstr i s).regs.tacc = true := by
  rcases byp_or_afterInstr_controller i s with ⟨btn, now, rfl⟩ | ⟨_, _, htacc⟩
  · cases hf : fires s.cfg s.regs btn now
    · exact absurd (by simp [bypassStep_tacc, hf]) h
    · have hnow : (afterInstr (.byp btn now) s).regs.tacc = now := by simp [bypassStep_tacc, hf]
      exact ⟨btn, by rw [hnow], by rw [hnow, hf]⟩
  · exact absurd htacc h

/-! ### What a command depends on -/

/-- A command's registers and result depend on the configuration and the registers only. -/
theorem afterInstr_congr (i : Instr) {s s' : State} (hcfg : s.cfg = s'.cfg) (hregs : s.regs = s'.regs) :
    (afterInstr i s).regs = (afterInstr i s').regs ∧ (afterInstr i s).res = (afterInstr i s').res := by
  cases i with
  | chu ch value mask tr ctl =>
    cases hb : s'.regs.byp
    · simp [afterInstr_chu_run s (hregs ▸ hb), afterInstr_chu_run s' hb, hcfg, hregs]
    · simp [afterInstr_chu_skip s (hregs ▸ hb), afterInstr_chu_skip s' hb, hregs]
  | _ => simp [hcfg, hregs]

/-- The result of a command that writes no register depends on the configuration only. -/
theorem afterInstr_pure_res {i : Instr} {s s' : State} (h : writesRegisters i = false)
    (hcfg : s.cfg = s'.cfg) : (afterInstr i s).res = (afterInstr i s').res := by
  cases i with
  | byp btn now => simp [writesRegisters] at h
  | chu ch value mask tr ctl => simp [writesRegisters] at h
  | _ => simp [hcfg]

/-- Settles O50: the channels' registers by `afterInstr_cur_cases` and `afterInstr_tgt_cases`, the
controller's by the two inversions to an accepted press. -/
theorem registersChangeOnlyByTheirWriters : Obligations.RegistersChangeOnlyByTheirWriters := by
  intro i s t h
  obtain rfl := eq_afterInstr h
  refine ⟨fun ch hne => (afterInstr_cur_cases i s ch).resolve_left hne,
    fun ch hne => (afterInstr_tgt_cases i s ch).resolve_left hne, fun hne => ?byp, fun hne => ?tacc,
    fun hne => ?lvl, afterInstr_cfg s i, afterInstr_input s i⟩
  case byp =>
    obtain ⟨btn, now, rfl, hf⟩ := fires_of_afterInstr_byp_ne hne
    obtain ⟨hlate, rfl, hlvl⟩ := (fires_iff ..).1 hf
    exact ⟨now, rfl, hlvl, hlate⟩
  case tacc =>
    obtain ⟨btn, hi, hf⟩ := fires_of_afterInstr_tacc_ne hne
    refine ⟨btn, hi, ?_⟩
    generalize (afterInstr i s).regs.tacc = now at hi hf
    subst hi
    simp [bypassStep_byp, hf]
  case lvl =>
    rcases byp_or_afterInstr_controller i s with ⟨btn, now, rfl⟩ | ⟨_, hlvl, _⟩
    · exact ⟨now, rfl⟩
    · exact absurd hlvl hne

/-- Settles O51, from the congruence of `afterInstr` in the configuration and the registers. -/
theorem nothingButTheRegistersIsCarriedOver : Obligations.NothingButTheRegistersIsCarriedOver := by
  refine ⟨fun i s s' t t' hcfg hregs h h' => ?_, fun i s s' t t' hpure hcfg h h' => ?_⟩
  · rw [eq_afterInstr h, eq_afterInstr h']
    exact afterInstr_congr i hcfg hregs
  · rw [eq_afterInstr h, eq_afterInstr h']
    exact afterInstr_pure_res hpure hcfg

/-! ## The range invariant

10_state.md rule R26: reset meets the invariant and every command and every step keeps it, so every run from
reset stays in range. -/

/-- The filter's answer lies between its operands (R105). -/
theorem glide_between (cfg : Cfg) (current target : Fix) (ctl : Ctl) :
    min current.toNat target.toNat ≤ (glide cfg current target ctl).toNat ∧
      (glide cfg current target ctl).toNat ≤ max current.toNat target.toNat := by
  rcases Nat.lt_or_ge ctl.toNat cfg.snapThreshold.val with hs | hs
  · rw [glide_snap hs]; omega
  · have hmove := glide_move hs current target
    rcases glideDelta_cases current target ctl with ⟨hle, hd⟩ | ⟨hlt, hd⟩
    · have := Nat.div_le_self (target.toNat - current.toNat) (steps ctl)
      generalize (target.toNat - current.toNat) / steps ctl = k at *
      omega
    · have := Nat.div_le_self (current.toNat - target.toNat) (steps ctl)
      generalize (current.toNat - target.toNat) / steps ctl = k at *
      omega

/-- A bound on both operands of the filter bounds its answer. -/
theorem glide_le {cfg : Cfg} {current target : Fix} {ctl : Ctl} {bound : Nat}
    (hc : current.toNat ≤ bound) (ht : target.toNat ≤ bound) :
    (glide cfg current target ctl).toNat ≤ bound :=
  (glide_between cfg current target ctl).2.trans (max_le hc ht)

/-- A new target is in range (R142). -/
theorem channelTarget_le (cfg : Cfg) (value : SFix) (mask : Mask) (tr : Tr) :
    (channelTarget cfg value mask tr).toNat ≤ cfg.maxSemitones.val := by
  have ht := channelTarget_toNat cfg value mask tr
  have := clamp_mem (((quantize cfg value mask).1.toNat : Int) + transposeOf tr)
    (Int.natCast_nonneg cfg.maxSemitones.val)
  omega

/-- A semitone in range is in range in raw units. -/
theorem toFix_le {cfg : Cfg} {t : Sem} (h : t.toNat ≤ cfg.maxSemitones.val) :
    (toFix t).toNat ≤ cfg.maxSemitones.val * 65536 := by
  rw [toFix_toNat]; exact Nat.mul_le_mul_right _ h

/-- A new current value is in range where the old one was (R143). -/
theorem channelCurrent_le {cfg : Cfg} {old : Fix} (value : SFix) (mask : Mask) (tr : Tr) (ctl : Ctl)
    (h : old.toNat ≤ cfg.maxSemitones.val * 65536) :
    (channelCurrent cfg old value mask tr ctl).toNat ≤ cfg.maxSemitones.val * 65536 :=
  glide_le h (toFix_le (channelTarget_le cfg value mask tr))

/-- The registers of R32 are in range in every configuration. -/
theorem Regs.reset_inRange (cfg : Cfg) : Regs.reset.InRange cfg :=
  (Regs.inRange_iff cfg _).2 fun ch => by simp

/-- Every command keeps the registers in range. -/
theorem afterInstr_inRange (i : Instr) {s : State} (h : s.InRange) : (afterInstr i s).InRange := by
  rw [State.InRange, afterInstr_cfg]
  refine (Regs.inRange_iff ..).2 fun ch => ?_
  obtain ⟨htgt, hcur⟩ := (Regs.inRange_iff ..).1 h ch
  constructor
  · rcases afterInstr_tgt_cases i s ch with heq | ⟨value, mask, tr, ctl, _, _, heq⟩
    · rwa [heq]
    · rw [heq]; exact channelTarget_le s.cfg value mask tr
  · rcases afterInstr_cur_cases i s ch with heq | ⟨value, mask, tr, ctl, _, _, heq⟩ | ⟨_, _, _, _, _, heq⟩
    · rwa [heq]
    · rw [heq]; exact channelCurrent_le value mask tr ctl hcur
    · rw [heq]; exact toFix_le htgt

/-- Every run of commands keeps the registers in range. -/
theorem runInstrs_inRange (is : List Instr) {s : State} (h : s.InRange) : (runInstrs is s).InRange :=
  runInstrs_induct h fun i _ _ => afterInstr_inRange i

/-- Settles O47, over the three things a step can do. -/
theorem stepKeepsTheRegistersInRange : Obligations.StepKeepsTheRegistersInRange := by
  intro s t hs hstep
  rcases step_cases hstep with ⟨_, rfl⟩ | ⟨rest, _, rfl⟩ | ⟨w, rest, _, hexec⟩
  · exact hs
  · exact Regs.reset_inRange s.cfg
  · rw [eq_afterInstr hexec]
    exact afterInstr_inRange (decode w) (s := s.withInput rest) hs

/-- Settles O48. -/
theorem resetStateIsInRange : Obligations.ResetStateIsInRange :=
  ⟨Regs.reset_inRange, Regs.reset_inRange Cfg.ref⟩

/-- Settles O49: the invariant holds at reset and every run keeps it. -/
theorem everyRunFromResetStaysInRange : Obligations.EveryRunFromResetStaysInRange := by
  intro cfg ws
  have h := runInstrs_inRange (ws.map decode) (s := State.resetWith cfg) (Regs.reset_inRange cfg)
  rwa [State.InRange, runInstrs_cfg] at h

/-! ## One command at the port

An accepted command waits as many edges as it was given and ends at the next one (30_encoding.md rule
R56). -/

/-- A command in progress, whose result port is low, counts down one at every edge without reset and changes
nothing else. -/
theorem runEdges_waiting {xs : List Pins} (hrst : ∀ y ∈ xs, y.rst = false) (s : State) (w : Word)
    (n count : Nat) :
    runEdges xs ⟨s.clearResult, some (w, xs.length + n), count⟩ = ⟨s.clearResult, some (w, n), count⟩ := by
  induction xs with
  | nil => simp [runEdges]
  | cons x xs ih =>
    have hlen : (x :: xs).length + n = xs.length + n + 1 := by simp; omega
    rw [runEdges, hlen, clockEdge_busy (n := xs.length + n) (hrst x (List.mem_cons_self ..)) rfl]
    exact ih fun y hy => hrst y (List.mem_cons_of_mem _ hy)

/-- One edge more than it has to wait ends a command in progress. -/
theorem runEdges_finish {xs : List Pins} {n : Nat} (hrst : ∀ y ∈ xs, y.rst = false)
    (hlen : xs.length = n + 1) (s : State) (w : Word) (count : Nat) :
    runEdges xs ⟨s.clearResult, some (w, n), count⟩ =
      ⟨afterInstr (decode w) s.clearResult, none, count⟩ := by
  rcases List.eq_nil_or_concat' xs with rfl | ⟨ys, y, rfl⟩
  · simp at hlen
  · obtain rfl : ys.length = n := by simpa using hlen
    have hys : ∀ z ∈ ys, z.rst = false := fun z hz => hrst z (List.mem_append_left _ hz)
    rw [runEdges_append, ← Nat.add_zero ys.length, runEdges_waiting hys]
    rw [runEdges, runEdges]
    exact clockEdge_finish (hrst y (by simp)) rfl

/-- Settles O54: the waiting edges by `runEdges_waiting`, the last one by `runEdges_finish`. That the
command starts with the result port low is of no account by `afterInstr_congr`. -/
theorem acceptedCommandFinishesAtThePort : Obligations.AcceptedCommandFinishesAtThePort := by
  intro p x xs hacc hrst
  rw [runEdges, clockEdge_accept hacc]
  refine ⟨fun hle => ?waiting, fun hlen => ?done⟩
  case waiting =>
    obtain ⟨n, hn⟩ := Nat.exists_eq_add_of_le hle
    rw [hn, runEdges_waiting hrst]
    exact ⟨rfl, rfl, fun y => Bool.and_false _⟩
  case done =>
    obtain ⟨hregs, hres⟩ := afterInstr_congr (decode x.cmd) (s := p.core.clearResult) (s' := p.core) rfl rfl
    obtain ⟨r, hr⟩ := afterInstr_res (decode x.cmd) p.core.clearResult
    rw [runEdges_finish hrst hlen]
    refine ⟨⟨_, exec_eq_afterInstr .., ?_⟩, ?_, fun y hy => ?_⟩
    · simp only [State.ports, hregs, hres]
    · simp [PortState.resValid, hr]
    · simp [PortState.cmdReady, hy]

end Sys2Proof.Machine

namespace Sys2Proof.Machine

/-! ## Runs of the machine over presented words

A step with a word next is its command, so stepping through the presented words is the run that R173
observes (10_state.md rule R48, 30_encoding.md rules R51, R56). -/

/-- A step with a command word next consumes the word and runs the command decoded from it (R51, R56). -/
theorem step_command {s : State} {w : Word} {rest : List Input} (h : s.input = .command w :: rest) :
    step s = exec (decode w) (s.withInput rest) := by
  simp [step, h]

/-- Settles O3. -/
theorem stepRunsTheNextCommand : Obligations.StepRunsTheNextCommand :=
  fun _ _ _ h => step_command h

/-- A run whose first step answers a next state goes on from that state. -/
theorem run_core_succ {s t : State} (k : Nat) (h : step s = .next t) :
    Host.Core.run core (k + 1) s = Host.Core.run core k t := by
  have hcore : core.step s = .next t := h
  simp only [Host.Core.run, hcore]

/-- As many steps as there are words presented leave the state of the commands' run, with only the inputs
after those words still to come. -/
theorem run_core_presented {ws : List Word} {rest : List Input} {s : State}
    (h : s.input = ws.map .command ++ rest) :
    Host.Core.run core ws.length s = .next ((runInstrs (ws.map decode) s).withInput rest) := by
  induction ws generalizing s with
  | nil =>
    obtain rfl : s.input = rest := h
    rfl
  | cons w ws ih =>
    have hstep : step s =
        .next ((afterInstr (decode w) s).withInput (ws.map .command ++ rest)) := by
      rw [step_command (rest := ws.map .command ++ rest) h, exec_eq_afterInstr, afterInstr_withInput]
    rw [List.length_cons, run_core_succ _ hstep, ih (State.withInput_input ..), runInstrs_withInput]
    rfl

/-- A run of at least one command ends with the last of its results presented. -/
theorem runInstrs_res {is : List Instr} (h : is ≠ []) (s : State) :
    (runInstrs is s).res = (resultsOf is s).getLast? := by
  obtain ⟨js, i, rfl⟩ := (List.eq_nil_or_concat' is).resolve_left h
  obtain ⟨r, hr⟩ := afterInstr_res i (runInstrs js s)
  simp [runInstrs_append, resultsOf_append, runInstrs, resultsOf, hr]

/-- Settles O6: `run_core_presented` names the state reached, and the laws of `runInstrs` and `resultsOf`
say what it holds. -/
theorem runExecutesThePresentedWordsInOrder : Obligations.RunExecutesThePresentedWordsInOrder := by
  intro ws rest s h
  refine ⟨(runInstrs (ws.map decode) s).withInput rest, run_core_presented h, rfl, runInstrs_cfg .., rfl,
    ?_, fun hne => runInstrs_res (mt List.map_eq_nil_iff.1 hne) s⟩
  exact (resultsOf_length ..).trans (List.length_map _)

end Sys2Proof.Machine

namespace Sys2Proof

/-! ## The formats, from command to word and back

Each format of 30_encoding.md R58 to R62 is read off the encoder's word field by field, which makes
`decode` a left inverse of `encode`. -/

section
open BitVec

/-- Format Q (R59): every operand is found where the encoder put it. -/
theorem decodeQ_encode (value : SFix) (mask : Mask) :
    decodeQ (encode (.qnt value mask)) = .qnt value mask := by
  simp (disch := omega) only [decodeQ, encode, extractLsb'_append_eq_of_le, extractLsb'_append_eq_of_add_le]
  simp

/-- Format G (R60). -/
theorem decodeG_encode (current target : Fix) (ctl : Ctl) :
    decodeG (encode (.gld current target ctl)) = .gld current target ctl := by
  simp (disch := omega) only [decodeG, encode, extractLsb'_append_eq_of_le, extractLsb'_append_eq_of_add_le]
  simp

/-- Format B (R61). -/
theorem decodeB_encode (btn : Level) (now : Time) :
    decodeB (encode (.byp btn now)) = .byp btn now := by
  simp (disch := omega) only [decodeB, encode, extractLsb'_append_eq_of_add_le, getLsbD_append]
  simp [-BitVec.getLsbD_eq_getElem]

/-- Format C (R62). -/
theorem decodeC_encode (ch : Chan) (value : SFix) (mask : Mask) (tr : Tr) (ctl : Ctl) :
    decodeC (encode (.chu ch value mask tr ctl)) = .chu ch value mask tr ctl := by
  simp (disch := omega) only [decodeC, encode, extractLsb'_append_eq_of_le, extractLsb'_append_eq_of_add_le,
    getLsbD_append]
  simp [-BitVec.getLsbD_eq_getElem]

end

/-- The decoder takes the assembler's word of any command back to the command: the opcode field chooses
the format, and the format gives back the operands. -/
@[simp] theorem decode_encode (i : Instr) : decode (encode i) = i := by
  cases i with
  | nop => exact decode_of_opcode Laws.WordOpcode.nop
  | qnt value mask =>
    exact (decode_of_opcode (o := 0b001#3) (Laws.WordOpcode.qnt value mask)).trans (decodeQ_encode ..)
  | gld current target ctl =>
    exact (decode_of_opcode (o := 0b010#3) (Laws.WordOpcode.gld current target ctl)).trans
      (decodeG_encode ..)
  | byp btn now =>
    exact (decode_of_opcode (o := 0b011#3) (Laws.WordOpcode.byp btn now)).trans (decodeB_encode ..)
  | chu ch value mask tr ctl =>
    exact (decode_of_opcode (o := 0b100#3) (Laws.WordOpcode.chu ch value mask tr ctl)).trans
      (decodeC_encode ..)
  | rsv5 => exact decode_of_opcode Laws.WordOpcode.rsv5
  | rsv6 => exact decode_of_opcode Laws.WordOpcode.rsv6
  | rsv7 => exact decode_of_opcode Laws.WordOpcode.rsv7

/-- Settles O7: well-formedness shuts out no command, so this is `decode_encode`. -/
theorem decodeOfEncodeIsTheInstruction : Obligations.DecodeOfEncodeIsTheInstruction :=
  fun i _ => decode_encode i

theorem decode_encode_comp : decode ∘ encode = id := funext decode_encode

/-- No two commands have one word. -/
theorem encode_injective : Function.Injective encode :=
  Function.LeftInverse.injective decode_encode

/-! ## The formats, from word to command and back -/

/-- The eight rows of R63: what a word's opcode field is, and how the word is then read. -/
theorem decode_cases (w : Word) :
    (w.extractLsb' 61 3 = 0b000#3 ∧ decode w = .nop) ∨
    (w.extractLsb' 61 3 = 0b001#3 ∧ decode w = decodeQ w) ∨
    (w.extractLsb' 61 3 = 0b010#3 ∧ decode w = decodeG w) ∨
    (w.extractLsb' 61 3 = 0b011#3 ∧ decode w = decodeB w) ∨
    (w.extractLsb' 61 3 = 0b100#3 ∧ decode w = decodeC w) ∨
    (w.extractLsb' 61 3 = 0b101#3 ∧ decode w = .rsv5) ∨
    (w.extractLsb' 61 3 = 0b110#3 ∧ decode w = .rsv6) ∨
    (w.extractLsb' 61 3 = 0b111#3 ∧ decode w = .rsv7) := by
  rw [decode_of_opcode (w := w) rfl]
  generalize w.extractLsb' 61 3 = o
  have rows : ∀ o : BitVec 3, o = 0b000#3 ∨ o = 0b001#3 ∨ o = 0b010#3 ∨ o = 0b011#3 ∨ o = 0b100#3 ∨
      o = 0b101#3 ∨ o = 0b110#3 ∨ o = 0b111#3 := by decide
  rcases rows o with rfl | rfl | rfl | rfl | rfl | rfl | rfl | rfl <;> simp

/-- The opcode of a decoded command is the word's `op` field (R57). -/
theorem opcode_decode (w : Word) : (decode w).opcode = w.extractLsb' 61 3 := by
  rcases decode_cases w with ⟨h, hd⟩ | ⟨h, hd⟩ | ⟨h, hd⟩ | ⟨h, hd⟩ | ⟨h, hd⟩ | ⟨h, hd⟩ | ⟨h, hd⟩ | ⟨h, hd⟩ <;>
    rw [h, hd] <;> rfl

/-! ### Clearing the ignored bits

A word is the concatenation of its fields and a mask that of all-ones and zero fields, so a word is masked
field by field. -/

section
open BitVec

/-- One bit of a word is the field of width 1 at its place. -/
theorem ofBool_getLsbD (w : Word) (k : Nat) : ofBool (w.getLsbD k) = w.extractLsb' k 1 := by
  ext i hi
  obtain rfl : i = 0 := by omega
  simp

/-- Only the `op` field kept (R58). -/
theorem and_opcodeMask (w : Word) : w &&& 0xE000000000000000#64 = w.extractLsb' 61 3 ++ 0#61 := by
  calc w &&& 0xE000000000000000#64
    _ = (w.extractLsb' 61 3 ++ w.extractLsb' 0 61) &&& (allOnes 3 ++ 0#61) := by
      simp only [extractLsb'_append_extractLsb'_eq_extractLsb', extractLsb'_eq_self]; rfl
    _ = w.extractLsb' 61 3 ++ 0#61 := by simp only [and_append, and_allOnes, and_zero]

/-- An opcode above 61 zeros names the opcode. -/
theorem append_zeros_inj {o o' : BitVec 3} : o ++ 0#61 = o' ++ 0#61 ↔ o = o' := by
  refine ⟨fun h => ?_, fun h => by rw [h]⟩
  exact extractLsb'_append_eq_left.symm.trans
    ((congrArg (extractLsb' 61 3) h).trans extractLsb'_append_eq_left)

/-- The encoder puts the fields of format Q back where they were and zeros between them (R59). -/
theorem encode_decodeQ {w : Word} (h : w.extractLsb' 61 3 = 0b001#3) :
    encode (decodeQ w) = w &&& 0xFFFE000001FFFFFF#64 := by
  calc encode (decodeQ w)
    _ = w.extractLsb' 61 3 ++ w.extractLsb' 49 12 ++ 0#24 ++ w.extractLsb' 0 25 := by rw [h]; rfl
    _ = (w.extractLsb' 61 3 ++ w.extractLsb' 49 12 ++ w.extractLsb' 25 24 ++ w.extractLsb' 0 25) &&&
        (allOnes 3 ++ allOnes 12 ++ 0#24 ++ allOnes 25) := by
      simp only [and_append, and_allOnes, and_zero]
    _ = w &&& 0xFFFE000001FFFFFF#64 := by
      simp only [extractLsb'_append_extractLsb'_eq_extractLsb', extractLsb'_eq_self]; rfl

/-- The encoder puts the fields of format G back where they were and zeros between them (R60). -/
theorem encode_decodeG {w : Word} (h : w.extractLsb' 61 3 = 0b010#3) :
    encode (decodeG w) = w &&& 0xFFF8FFFFFFFFFFFF#64 := by
  calc encode (decodeG w)
    _ = w.extractLsb' 61 3 ++ w.extractLsb' 51 10 ++ 0#3 ++ w.extractLsb' 24 24 ++
          w.extractLsb' 0 24 := by rw [h]; rfl
    _ = (w.extractLsb' 61 3 ++ w.extractLsb' 51 10 ++ w.extractLsb' 48 3 ++ w.extractLsb' 24 24 ++
          w.extractLsb' 0 24) &&& (allOnes 3 ++ allOnes 10 ++ 0#3 ++ allOnes 24 ++ allOnes 24) := by
      simp only [and_append, and_allOnes, and_zero]
    _ = w &&& 0xFFF8FFFFFFFFFFFF#64 := by
      simp only [extractLsb'_append_extractLsb'_eq_extractLsb', extractLsb'_eq_self]; rfl

/-- The encoder puts the fields of format B back where they were and zeros between them (R61). -/
theorem encode_decodeB {w : Word} (h : w.extractLsb' 61 3 = 0b011#3) :
    encode (decodeB w) = w &&& 0xE0000001FFFFFFFF#64 := by
  calc encode (decodeB w)
    _ = w.extractLsb' 61 3 ++ 0#28 ++ w.extractLsb' 32 1 ++ w.extractLsb' 0 32 := by
      rw [h, ← ofBool_getLsbD, ← Level.toBit_ofBit]; rfl
    _ = (w.extractLsb' 61 3 ++ w.extractLsb' 33 28 ++ w.extractLsb' 32 1 ++ w.extractLsb' 0 32) &&&
        (allOnes 3 ++ 0#28 ++ allOnes 1 ++ allOnes 32) := by
      simp only [and_append, and_allOnes, and_zero]
    _ = w &&& 0xE0000001FFFFFFFF#64 := by
      simp only [extractLsb'_append_extractLsb'_eq_extractLsb', extractLsb'_eq_self]; rfl

/-- The encoder puts the fields of format C back where they were and zeros between them (R62). -/
theorem encode_decodeC {w : Word} (h : w.extractLsb' 61 3 = 0b100#3) :
    encode (decodeC w) = w &&& 0xFFFFFFFFC1FFFFFF#64 := by
  calc encode (decodeC w)
    _ = w.extractLsb' 61 3 ++ w.extractLsb' 60 1 ++ w.extractLsb' 48 12 ++ w.extractLsb' 38 10 ++
          w.extractLsb' 30 8 ++ 0#5 ++ w.extractLsb' 0 25 := by
      rw [h, ← ofBool_getLsbD, ← Chan.toBit_ofBit]; rfl
    _ = (w.extractLsb' 61 3 ++ w.extractLsb' 60 1 ++ w.extractLsb' 48 12 ++ w.extractLsb' 38 10 ++
          w.extractLsb' 30 8 ++ w.extractLsb' 25 5 ++ w.extractLsb' 0 25) &&&
        (allOnes 3 ++ allOnes 1 ++ allOnes 12 ++ allOnes 10 ++ allOnes 8 ++ 0#5 ++ allOnes 25) := by
      simp only [and_append, and_allOnes, and_zero]
    _ = w &&& 0xFFFFFFFFC1FFFFFF#64 := by
      simp only [extractLsb'_append_extractLsb'_eq_extractLsb', extractLsb'_eq_self]; rfl

end

/-- Encoding a decoded word clears exactly the bits its format marks ignored. -/
theorem encode_decode (w : Word) : encode (decode w) = w &&& (decode w).usedBits := by
  rcases decode_cases w with
    ⟨h, hd⟩ | ⟨h, hd⟩ | ⟨h, hd⟩ | ⟨h, hd⟩ | ⟨h, hd⟩ | ⟨h, hd⟩ | ⟨h, hd⟩ | ⟨h, hd⟩ <;> rw [hd]
  case inr.inl => exact encode_decodeQ h
  case inr.inr.inl => exact encode_decodeG h
  case inr.inr.inr.inl => exact encode_decodeB h
  case inr.inr.inr.inr.inl => exact encode_decodeC h
  all_goals exact (and_opcodeMask w).trans (by rw [h]; rfl) |>.symm

/-- Settles O8, by `encode_decode`. -/
theorem encodeOfDecodeClearsTheIgnoredBits : Obligations.EncodeOfDecodeClearsTheIgnoredBits :=
  encode_decode

/-! ### Ignored bits -/

/-- The encoder sets no ignored bit. -/
@[simp] theorem encode_and_usedBits (i : Instr) : encode i &&& i.usedBits = encode i := by
  simpa using (encode_decode (encode i)).symm

/-- Every format uses the `op` field. -/
theorem usedBits_and_opcodeMask (i : Instr) :
    i.usedBits &&& 0xE000000000000000#64 = 0xE000000000000000#64 := by
  cases i <;> simp only [Instr.usedBits] <;> decide

/-- The format of a word is fixed by its `op` field. -/
theorem usedBits_decode_congr {w w' : Word} (h : w'.extractLsb' 61 3 = w.extractLsb' 61 3) :
    (decode w').usedBits = (decode w).usedBits := by
  rcases decode_cases w with
    ⟨ho, hd⟩ | ⟨ho, hd⟩ | ⟨ho, hd⟩ | ⟨ho, hd⟩ | ⟨ho, hd⟩ | ⟨ho, hd⟩ | ⟨ho, hd⟩ | ⟨ho, hd⟩ <;>
    rw [hd, decode_of_opcode (h.trans ho)] <;> rfl

/-- Words that agree on the bits the first one's format uses are one command: the `op` field is among
those bits, so their formats are the same, and so are their words of the encoder. -/
theorem decode_eq_of_and_usedBits {w w' : Word}
    (h : w &&& (decode w).usedBits = w' &&& (decode w).usedBits) : decode w' = decode w := by
  have hop : w'.extractLsb' 61 3 = w.extractLsb' 61 3 := by
    have := congrArg (· &&& 0xE000000000000000#64) h
    simp only [BitVec.and_assoc, usedBits_and_opcodeMask] at this
    rw [and_opcodeMask, and_opcodeMask, append_zeros_inj] at this
    exact this.symm
  apply encode_injective
  rw [encode_decode, encode_decode, usedBits_decode_congr hop, h]

/-- Settles O9: `decode_eq_of_and_usedBits` for what the block reads, `encode_and_usedBits` for what the
assembler writes. -/
theorem ignoredBitsDoNotAffectDecoding : Obligations.IgnoredBitsDoNotAffectDecoding := by
  refine ⟨fun w w' h => ?_, fun i => ?_⟩
  · have hd := decode_eq_of_and_usedBits h
    exact ⟨hd, fun s => by rw [hd]⟩
  · rw [← encode_and_usedBits, BitVec.and_assoc, BitVec.and_not_self]
    exact BitVec.and_zero

/-! ### The opcode map -/

/-- Which commands are in each row of R63. -/
theorem opcode_eq_iff (i : Instr) :
    (i.opcode = 0b000#3 ↔ i = .nop) ∧ (i.opcode = 0b001#3 ↔ ∃ v m, i = .qnt v m) ∧
    (i.opcode = 0b010#3 ↔ ∃ u t c, i = .gld u t c) ∧ (i.opcode = 0b011#3 ↔ ∃ b n, i = .byp b n) ∧
    (i.opcode = 0b100#3 ↔ ∃ h v m r c, i = .chu h v m r c) ∧ (i.opcode = 0b101#3 ↔ i = .rsv5) ∧
    (i.opcode = 0b110#3 ↔ i = .rsv6) ∧ (i.opcode = 0b111#3 ↔ i = .rsv7) := by
  cases i <;> simp [Instr.opcode]

/-- A match value is met exactly by the words whose command has its opcode. -/
theorem and_opcodeMask_eq_iff (w : Word) (o : BitVec 3) :
    w &&& 0xE000000000000000#64 = o ++ 0#61 ↔ (decode w).opcode = o := by
  rw [opcode_decode, and_opcodeMask, append_zeros_inj]

/-- Settles O10: a match value is an opcode above 61 zeros, and the rows are told apart by their opcodes. -/
theorem opcodeIsTheTopThreeBits : Obligations.OpcodeIsTheTopThreeBits := by
  have hshift : ∀ o : BitVec 3, o ++ 0#61 = o.setWidth 64 <<< 61 := by decide
  refine ⟨fun w => ⟨opcode_decode w, ?_⟩, fun w => ?_⟩
  · rw [← hshift]; exact (and_opcodeMask_eq_iff w _).2 rfl
  · have hmatch := and_opcodeMask_eq_iff w
    obtain ⟨h0, h1, h2, h3, h4, h5, h6, h7⟩ := opcode_eq_iff (decode w)
    exact ⟨(hmatch _).trans h0, (hmatch _).trans h1, (hmatch _).trans h2, (hmatch _).trans h3,
      (hmatch _).trans h4, (hmatch _).trans h5, (hmatch _).trans h6, (hmatch _).trans h7⟩

/-- Settles O11: closed words, by evaluation of the decoder and the encoder. -/
theorem workedEncodingsDecode : Obligations.WorkedEncodingsDecode := by
  unfold Obligations.WorkedEncodingsDecode
  decide

end Sys2Proof

namespace Sys2Proof.Machine

/-! ## Reading operands -/

/-- Bit `i` of the number of a list of bits is entry `i` of the list. -/
theorem testBit_natOfBits (bs : List Bool) (i : Nat) : (natOfBits bs).testBit i = bs.getD i false := by
  induction bs generalizing i with
  | nil => simp [natOfBits]
  | cons b bs ih =>
    have hbit : natOfBits (b :: bs) = Nat.bit b (natOfBits bs) := by
      rw [natOfBits, Nat.bit_val, Nat.add_comm]
    cases i with
    | zero => rw [hbit, Nat.testBit_bit_zero]; rfl
    | succ i => rw [hbit, Nat.testBit_bit_succ, ih]; rfl

/-- A brace list of twelve bits is the mask that holds class `i` where entry `i` is set (R66). -/
theorem hasClass_maskOfList {bs : List Bool} (h : bs.length = 12) (i : Nat) :
    hasClass (maskOfList bs) i = bs.getD i false := by
  rw [hasClass, maskOfList, BitVec.getLsbD_ofNat, testBit_natOfBits]
  rcases Nat.lt_or_ge i 12 with hi | hi
  · simp [hi]
  · rw [List.getD_eq_default _ _ (h ▸ hi), Bool.and_false]

/-- A `value` is negative exactly when its sign bit is set (R67). -/
theorem valueOf_neg_iff (v : SFix) : valueOf v < 0 ↔ v.getLsbD 24 = true := by
  have hmsb : v.getLsbD 24 = v.msb := (BitVec.msb_eq_getLsbD_last v).symm
  rw [hmsb, BitVec.msb_eq_toInt, decide_eq_true_iff, valueOf]

/-- Settles O12: the two general laws by `hasClass_maskOfList` and `valueOf_neg_iff`, the examples by
evaluation. -/
theorem operandEncodingExamples : Obligations.OperandEncodingExamples :=
  ⟨by decide, by decide, fun _ h i => hasClass_maskOfList h i, by decide, by decide, by decide, by decide,
    by decide, fun v => ⟨(valueOf_mem v).1, (valueOf_mem v).2, valueOf_neg_iff v⟩, by decide, by decide,
    by decide, by decide, by decide⟩

/-! ## The assembler -/

/-- A statement in range assembles to the words of its commands. -/
theorem assemble_of_wf {l : AsmLine} (h : l.wf = true) :
    assemble l = some ((expandLine l).map encode) := by
  simp [assemble, h]

/-- Settles O13: the words are the encoder's, and operands in range are stored without wrap. -/
theorem assemblerKeepsEveryOperand : Obligations.AssemblerKeepsEveryOperand := by
  intro l
  refine ⟨fun h => by simp [assemble, h], fun h => ⟨_, assemble_of_wf h, ?_, ?_, ?_⟩⟩
  · rw [List.map_map, decode_encode_comp, List.map_id]
  · intro w hw
    obtain ⟨i, _, rfl⟩ := List.mem_map.1 hw
    rw [decode_encode, encode_and_usedBits]
  · cases l with
    | nop => rfl
    | qnt value mask =>
      simp only [AsmLine.wf, Bool.and_eq_true] at h
      obtain ⟨hv, hm⟩ := h
      exact ⟨_, _, rfl, fitsSFix_toInt hv, fitsMask_toNat hm⟩
    | gld current target ctl =>
      simp only [AsmLine.wf, Bool.and_eq_true] at h
      obtain ⟨⟨hu, ht⟩, hc⟩ := h
      exact ⟨_, _, _, rfl, fitsFix_toNat hu, fitsFix_toNat ht, fitsCtl_toNat hc⟩
    | byp btn now => exact ⟨_, rfl, fitsTime_toNat h⟩
    | chu ch value mask tr ctl =>
      simp only [AsmLine.wf, Bool.and_eq_true] at h
      obtain ⟨⟨⟨⟨hch, hv⟩, hm⟩, hr⟩, hc⟩ := h
      exact ⟨_, _, _, _, _, rfl, fitsChan_toNat hch, fitsSFix_toInt hv, fitsMask_toNat hm, fitsTr_toInt hr,
        fitsCtl_toNat hc⟩
    | tick btn now mask tr ctl value0 value1 =>
      simp only [AsmLine.wf, Bool.and_eq_true] at h
      obtain ⟨⟨⟨⟨⟨hn, hm⟩, hr⟩, hc⟩, hv0⟩, hv1⟩ := h
      exact ⟨_, _, _, _, _, _, rfl, fitsTime_toNat hn, fitsMask_toNat hm, fitsTr_toInt hr,
        fitsCtl_toNat hc, fitsSFix_toInt hv0, fitsSFix_toInt hv1⟩

/-! ## Results -/

/-- A semitone in raw units has the semitone above the point and nothing below it. -/
theorem toFix_fields (q : Sem) : (toFix q).extractLsb' 16 8 = q ∧ (toFix q).extractLsb' 0 16 = 0 := by
  have hq := toFix_toNat q
  constructor
  · apply BitVec.eq_of_toNat_eq
    rw [BitVec.extractLsb'_toNat, hq, Nat.shiftRight_eq_div_pow]
    omega
  · apply BitVec.eq_of_toNat_eq
    rw [BitVec.extractLsb'_toNat, hq]
    simp

/-- The places of the flags in `res_flags`. -/
theorem ResFlags.getLsbD_toBits (f : ResFlags) :
    f.toBits.getLsbD 0 = f.miss ∧ f.toBits.getLsbD 1 = f.tog ∧ f.toBits.getLsbD 2 = f.skip ∧
      f.toBits.getLsbD 3 = f.ill := by
  simp only [ResFlags.toBits, BitVec.getLsbD_append]
  simp

/-- The result of a `CHU`: what the channel holds after it, `skip` under bypass, `miss` otherwise. -/
theorem afterInstr_chu_res (ch : Chan) (value : SFix) (mask : Mask) (tr : Tr) (ctl : Ctl) (s : State) :
    (afterInstr (.chu ch value mask tr ctl) s).res =
      some ⟨(afterInstr (.chu ch value mask tr ctl) s).regs.cur ch,
        ⟨false, s.regs.byp, false, (quantize s.cfg value mask).2 && !s.regs.byp⟩⟩ := by
  cases hb : s.regs.byp
  · simp [afterInstr_chu_run s hb, ResFlags.ofMiss]
  · simp [afterInstr_chu_skip s hb, ResFlags.skipped]

/-- A flag's word is its bit, zero-extended (R126). -/
theorem zextFlag_eq_setWidth (b : Bool) : zextFlag b = (BitVec.ofBool b).setWidth 24 := by
  cases b <;> rfl

/-- Settles O14, over the rows of R72. -/
theorem everyCommandReturnsItsTabledResult : Obligations.EveryCommandReturnsItsTabledResult := by
  refine ⟨ResFlags.getLsbD_toBits, fun i s => ?_⟩
  cases i with
  | qnt value mask =>
    obtain ⟨hsem, hfrac⟩ := toFix_fields (quantize s.cfg value mask).1
    exact ⟨_, _, rfl, rfl, hsem, hfrac, rfl, rfl⟩
  | byp btn now =>
    exact ⟨_, _, rfl, rfl, zextFlag_eq_setWidth _,
      congrArg ResFlags.ofTog (fires_eq_toggled s.cfg s.regs btn now)⟩
  | chu ch value mask tr ctl =>
    exact ⟨_, _, exec_eq_afterInstr .., afterInstr_chu_res .., rfl, rfl⟩
  | gld current target ctl => exact ⟨_, _, rfl, rfl, rfl, rfl⟩
  | _ => exact ⟨_, _, rfl, rfl, rfl⟩

/-! ## The port against the machine of commands

30_encoding.md rule R56 and 10_state.md rule R48: the words a run of edges has accepted are those done and,
while the block is busy, one more; the registers and the results presented are those of the words done. -/

/-- The words accepted are those done, and after them the one in progress. -/
def AcceptedOrBusy (p : PortState) (accepted done : List Word) : Prop :=
  (p.busy = none ∧ accepted = done) ∨ ∃ w n, p.busy = some (w, n) ∧ accepted = done ++ [w]

/-- The relation of the port to the machine of commands: some words are done, from the state `s`. -/
def PortRefines (s : State) (p : PortState) (accepted : List Word) (presented : List Result) : Prop :=
  ∃ done, p.core.cfg = s.cfg ∧ p.core.regs = (observe done s).regs ∧
    presented = (observe done s).results ∧ AcceptedOrBusy p accepted done

theorem observe_concat_regs (done : List Word) (w : Word) (s : State) :
    (observe (done ++ [w]) s).regs = (afterInstr (decode w) (runInstrs (done.map decode) s)).regs := by
  simp [observe, runInstrs_append, runInstrs]

theorem observe_concat_results (done : List Word) (w : Word) (s : State) :
    (observe (done ++ [w]) s).results =
      (observe done s).results ++ (afterInstr (decode w) (runInstrs (done.map decode) s)).res.toList := by
  simp [observe, resultsOf_append, resultsOf]

/-- When the block accepts a command (R56). -/
theorem PortState.accepts_iff (p : PortState) (x : Pins) :
    p.accepts x = true ↔ x.rst = false ∧ x.cmdValid = true ∧ p.busy = none := by
  simp only [accepts, cmdReady, Bool.and_eq_true, Bool.not_eq_true', Option.isNone_iff_eq_none]
  tauto

/-- Every edge without reset keeps the relation: an edge at rest accepts the word presented or does nothing,
an edge in progress waits or completes the word. -/
theorem clockEdge_refines {s : State} {p : PortState} {x : Pins} {accepted : List Word}
    {presented : List Result} (hrst : x.rst = false) (h : PortRefines s p accepted presented) :
    PortRefines s (clockEdge p x) (accepted ++ if p.accepts x then [x.cmd] else [])
      (presented ++ (clockEdge p x).core.res.toList) := by
  obtain ⟨done, hcfg, hregs, hres, ⟨hbusy, rfl⟩ | ⟨w, n, hbusy, rfl⟩⟩ := h
  · cases hv : x.cmdValid with
    | false =>
      have hacc : ¬ p.accepts x = true := by simp [p.accepts_iff, hv]
      rw [clockEdge_idle hrst hv hbusy, if_neg hacc, List.append_nil]
      exact ⟨accepted, hcfg, hregs, by simp [hres], .inl ⟨hbusy, rfl⟩⟩
    | true =>
      have hacc : p.accepts x = true := (p.accepts_iff x).2 ⟨hrst, hv, hbusy⟩
      rw [clockEdge_accept hacc, if_pos hacc]
      exact ⟨accepted, hcfg, hregs, by simp [hres], .inr ⟨x.cmd, _, rfl, rfl⟩⟩
  · have hacc : ¬ p.accepts x = true := by simp [p.accepts_iff, hbusy]
    rw [if_neg hacc, List.append_nil]
    cases n with
    | succ n =>
      rw [clockEdge_busy hrst hbusy]
      exact ⟨done, hcfg, hregs, by simp [hres], .inr ⟨w, n, rfl, rfl⟩⟩
    | zero =>
      rw [clockEdge_finish hrst hbusy]
      obtain ⟨hregs', hres'⟩ := afterInstr_congr (decode w)
        (s := p.core) (s' := runInstrs (done.map decode) s) (by rw [hcfg, runInstrs_cfg]) hregs
      refine ⟨done ++ [w], ?_, ?_, ?_, .inl ⟨rfl, rfl⟩⟩
      · rw [afterInstr_cfg, hcfg]
      · rw [observe_concat_regs, hregs']
      · rw [observe_concat_results, hres, hres']

/-- Edges without reset keep the relation. -/
theorem runEdges_refines {s : State} {p : PortState} {xs : List Pins} {accepted : List Word}
    {presented : List Result} (hrst : ∀ x ∈ xs, x.rst = false) (h : PortRefines s p accepted presented) :
    PortRefines s (runEdges xs p) (accepted ++ acceptedWords xs p) (presented ++ presentedResults xs p) := by
  induction xs generalizing p accepted presented with
  | nil => simpa [runEdges, acceptedWords, presentedResults] using h
  | cons x xs ih =>
    obtain ⟨hx, hxs⟩ := List.forall_mem_cons.1 hrst
    simpa only [runEdges, acceptedWords, presentedResults, List.append_assoc] using
      ih hxs (clockEdge_refines hx h)

/-- Settles O55: a block at rest is in the relation with no word done. -/
theorem portRefinesTheCommandMachine : Obligations.PortRefinesTheCommandMachine := by
  intro p xs hbusy hrst
  have hinit : PortRefines p.core p [] [] := ⟨[], rfl, rfl, rfl, .inl ⟨hbusy, rfl⟩⟩
  obtain ⟨done, _, hregs, hres, hacc⟩ := runEdges_refines hrst hinit
  exact ⟨done, hregs, hres, hacc⟩

end Sys2Proof.Machine

namespace Sys2Proof.Machine

/-! ## The quantizer

40_quantize.md: the rounding against the reals, the candidate, and the search as the nearest acceptable
semitone. -/

/-! ### Rounding and the candidate -/

/-- Rounding half up, on the raw integer (R81). -/
theorem floor_realOf_add_half (n : Int) : ⌊realOf n + 1 / 2⌋ = (n + 32768) / 65536 := by
  have hreal : realOf n + 1 / 2 = ((n + 32768 : Int) : Rat) / (65536 : Nat) := by
    rw [realOf]; push_cast; ring
  rw [hreal, Rat.floor_intCast_div_natCast]; rfl

/-- The absolute value of a negative value is the value of its negation. -/
theorem abs_realOf_of_neg {n : Int} (h : n < 0) : |realOf n| = realOf (-n) := by
  have hneg : realOf n < 0 := div_neg_of_neg_of_pos (by exact_mod_cast h) (by norm_num)
  rw [abs_of_neg hneg, realOf, realOf, Int.cast_neg, neg_div]

/-- A value that is not negative is rounded half up. -/
theorem rhaz_of_nonneg {n : Int} (h : 0 ≤ n) : rhaz n = ⌊realOf n + 1 / 2⌋ := by
  rw [floor_realOf_add_half, rhaz, if_pos h]

/-- A negative value is rounded as its negation is, and negated. -/
theorem rhaz_of_neg {n : Int} (h : n < 0) : rhaz n = -⌊|realOf n| + 1 / 2⌋ := by
  rw [abs_realOf_of_neg h, floor_realOf_add_half, rhaz, if_neg (not_le.2 h)]

theorem rhaz_nonpos_of_neg {n : Int} (h : n < 0) : rhaz n ≤ 0 := by
  have := (rhaz_near n).2
  omega

/-- Settles O17: the bounds by `rhaz_near`, the two halves by the floor of the rounded real. -/
theorem roundingIsHalfAwayFromZero : Obligations.RoundingIsHalfAwayFromZero := by
  refine ⟨fun v => ?_, by decide, by decide, by decide, by decide, by decide, by decide⟩
  have hv : -16777216 ≤ v.toInt ∧ v.toInt ≤ 16777215 := valueOf_mem v
  have hnear := rhaz_near v.toInt
  exact ⟨by omega, by omega, rhaz_of_nonneg, rhaz_of_neg⟩

/-- A value at or below the lower bound is clamped to it. -/
theorem clamp_of_le {x lo hi : Int} (h : x ≤ lo) (hlh : lo ≤ hi) : clamp x lo hi = lo := by
  unfold clamp; split
  · rfl
  · split <;> omega

/-- A value at or above the upper bound is clamped to it. -/
theorem clamp_of_ge {x lo hi : Int} (h : hi ≤ x) (hlh : lo ≤ hi) : clamp x lo hi = hi := by
  unfold clamp; split
  · omega
  · split <;> omega

theorem clamp_eq_max_min {x lo hi : Int} (hlh : lo ≤ hi) : clamp x lo hi = max lo (min x hi) := by
  unfold clamp; split
  · omega
  · split <;> omega

section
variable {cfg : Cfg} {v : SFix}

/-- A rounded value in range is the candidate. -/
theorem candidate_of_mem (h : 0 ≤ rhaz v.toInt) (htop : rhaz v.toInt ≤ cfg.maxSemitones.val) :
    candidate cfg v = rhaz v.toInt :=
  clamp_of_mem h htop

/-- A value that rounds to 0 or less has the candidate 0. -/
theorem candidate_of_nonpos (h : rhaz v.toInt ≤ 0) : candidate cfg v = 0 :=
  clamp_of_le h (Int.natCast_nonneg _)

/-- A negative value has the candidate 0. -/
theorem candidate_of_neg (h : v.toInt < 0) : candidate cfg v = 0 :=
  candidate_of_nonpos (rhaz_nonpos_of_neg h)

/-- A value that rounds to the top or more has the candidate at the top. -/
theorem candidate_of_top_le (h : (cfg.maxSemitones.val : Int) ≤ rhaz v.toInt) :
    candidate cfg v = cfg.maxSemitones.val :=
  clamp_of_ge h (Int.natCast_nonneg _)

/-- The candidate at a known top of the range. -/
theorem candidate_of_top {top : Fin 256} (h : cfg.maxSemitones = top) :
    candidate cfg v = clamp (rhaz v.toInt) 0 (top.val : Int) := by
  rw [← h]; rfl

end

/-- Settles O18. -/
theorem candidateIsTheClampedRounding : Obligations.CandidateIsTheClampedRounding := by
  refine fun cfg v => ⟨clamp_eq_max_min (Int.natCast_nonneg _), ?_, candidate_of_top_le⟩
  rintro (hneg | hzero)
  · exact candidate_of_neg hneg
  · exact candidate_of_nonpos hzero.le

/-- Settles O19: the two roundings differ below zero only, where both clamp to 0. -/
theorem roundingModeCannotBeObserved : Obligations.RoundingModeCannotBeObserved := by
  refine fun cfg v => ⟨fun h => ⟨rhaz_nonpos_of_neg h, candidate_of_neg h⟩, ?_, rhaz_of_nonneg⟩
  rcases lt_or_ge v.toInt 0 with h | h
  · have hfloor : ⌊realOf v.toInt + 1 / 2⌋ ≤ 0 := by rw [floor_realOf_add_half]; omega
    rw [candidate_of_neg h, clamp_of_le hfloor (Int.natCast_nonneg _)]
  · rw [← rhaz_of_nonneg h]; rfl

/-! ### The first hit -/

/-- No radius smaller than `d` hits (R83). -/
def MissesBelow (cfg : Cfg) (m : Mask) (c : Int) (d : Nat) : Prop :=
  ∀ e : Nat, e < d → acceptable cfg m (c - e) = false ∧ acceptable cfg m (c + e) = false

section
variable {cfg : Cfg} {v : SFix} {m : Mask}

/-- Where no radius smaller than `d` hits, no semitone nearer than `d` is acceptable. -/
theorem MissesBelow.le_natAbs {c s : Int} {d : Nat} (h : MissesBelow cfg m c d)
    (hs : acceptable cfg m s = true) : d ≤ (s - c).natAbs := by
  by_contra hlt
  obtain ⟨hlo, hhi⟩ := h (s - c).natAbs (by omega)
  rcases Int.le_total c s with hcs | hcs
  · rw [show c + (s - c).natAbs = s by omega, hs] at hhi; cases hhi
  · rw [show c - (s - c).natAbs = s by omega, hs] at hlo; cases hlo

/-- The answer at the first radius that hits: the value below where it is acceptable, else the value
above. -/
theorem quantize_of_first_hit {d : Nat} (hd : d ≤ 12) (hbelow : MissesBelow cfg m (candidate cfg v) d)
    (hit : acceptable cfg m (candidate cfg v - d) = true ∨ acceptable cfg m (candidate cfg v + d) = true) :
    ((quantize cfg v m).1.toNat : Int) =
        (if acceptable cfg m (candidate cfg v - d) then candidate cfg v - d else candidate cfg v + d) ∧
      (quantize cfg v m).2 = false := by
  rcases quantize_cases cfg v m with ⟨d', _, hbelow', hmiss, hq⟩ | ⟨hnone, _, _⟩
  · obtain rfl : d' = d := by
      rcases Nat.lt_trichotomy d' d with h | h | h
      · simp [hbelow d' h] at hq
      · exact h
      · simp [hbelow' d h] at hit
    refine ⟨?_, hmiss⟩
    rcases hq with ⟨hq, hlo⟩ | ⟨hq, hlo, _⟩
    · rw [hq, if_pos hlo]
    · rw [hq, if_neg (by simp [hlo])]
  · simp [hnone d hd] at hit

/-- The answer where no radius up to 12 hits: the candidate, as a miss (R84). -/
theorem quantize_of_no_hit (h : MissesBelow cfg m (candidate cfg v) 13) :
    ((quantize cfg v m).1.toNat : Int) = candidate cfg v ∧ (quantize cfg v m).2 = true := by
  rcases quantize_cases cfg v m with ⟨d, hd, _, _, hq⟩ | ⟨_, hmiss, hq⟩
  · simp [h d (by omega)] at hq
  · exact ⟨hq, hmiss⟩

/-- The answer where the first radius that hits does so below (R83). -/
theorem quantize_of_hit_below {d : Nat} (hd : d ≤ 12) (hbelow : MissesBelow cfg m (candidate cfg v) d)
    (hlo : acceptable cfg m (candidate cfg v - d) = true) :
    ((quantize cfg v m).1.toNat : Int) = candidate cfg v - d ∧ (quantize cfg v m).2 = false := by
  simpa only [if_pos hlo] using quantize_of_first_hit hd hbelow (.inl hlo)

/-- The answer where the first radius that hits does so above only (R83). -/
theorem quantize_of_hit_above {d : Nat} (hd : d ≤ 12) (hbelow : MissesBelow cfg m (candidate cfg v) d)
    (hlo : acceptable cfg m (candidate cfg v - d) = false)
    (hhi : acceptable cfg m (candidate cfg v + d) = true) :
    ((quantize cfg v m).1.toNat : Int) = candidate cfg v + d ∧ (quantize cfg v m).2 = false := by
  simpa only [hlo, Bool.false_eq_true, if_false] using quantize_of_first_hit hd hbelow (.inr hhi)

/-- An acceptable candidate is the answer: it hits at radius 0. -/
theorem quantize_of_acceptable (h : acceptable cfg m (candidate cfg v) = true) :
    ((quantize cfg v m).1.toNat : Int) = candidate cfg v ∧ (quantize cfg v m).2 = false := by
  simpa using quantize_of_hit_below (v := v) (d := 0) (by omega) (fun e he => absurd he e.not_lt_zero)
    (by simpa using h)

/-- A value that rounds to the semitone above an acceptable one, itself in range and not in-scale, gives the
lower one. -/
theorem quantize_of_step_down (q : Sem) (hr : rhaz v.toInt = q.toNat + 1)
    (htop : rhaz v.toInt ≤ cfg.maxSemitones.val)
    (hmiss : m.getLsbD (rhaz v.toInt % 12).toNat = false)
    (hit : m.getLsbD ((q.toNat : Int) % 12).toNat = true) : quantize cfg v m = (q, false) := by
  have hc : candidate cfg v = q.toNat + 1 := (candidate_of_mem (by omega) htop).trans hr
  have hlow : candidate cfg v - (1 : Nat) = q.toNat := by omega
  have hbelow : MissesBelow cfg m (candidate cfg v) 1 := by
    intro e he
    obtain rfl : e = 0 := by omega
    have hnot : acceptable cfg m (candidate cfg v) = false := by
      rw [← Bool.not_eq_true, acceptable_iff, hc, ← hr, hmiss]
      simp
    simpa using hnot
  obtain ⟨hval, hflag⟩ := quantize_of_hit_below (by omega) hbelow
    (by rw [hlow]; exact (acceptable_iff ..).2 ⟨by omega, by omega, hit⟩)
  exact Prod.ext (BitVec.eq_of_toNat_eq (Int.ofNat_inj.1 (hval.trans hlow))) hflag

/-- A miss is the candidate, with nothing acceptable at any radius up to 12. -/
theorem quantize_miss (h : (quantize cfg v m).2 = true) :
    ((quantize cfg v m).1.toNat : Int) = candidate cfg v ∧ MissesBelow cfg m (candidate cfg v) 13 := by
  rcases quantize_cases cfg v m with ⟨_, _, _, hhit, _⟩ | ⟨hnone, _, hq⟩
  · rw [hhit] at h; cases h
  · exact ⟨hq, fun e he => hnone e (by omega)⟩

/-! ### The nearest acceptable semitone -/

/-- A hit is acceptable, no acceptable semitone is nearer to the candidate, and none at the same distance
is lower. -/
theorem quantize_nearest (h : (quantize cfg v m).2 = false) :
    acceptable cfg m (quantize cfg v m).1.toNat = true ∧
    ∀ s : Int, acceptable cfg m s = true →
      ((quantize cfg v m).1.toNat - candidate cfg v).natAbs ≤ (s - candidate cfg v).natAbs ∧
      (((quantize cfg v m).1.toNat - candidate cfg v).natAbs = (s - candidate cfg v).natAbs →
        ((quantize cfg v m).1.toNat : Int) ≤ s) := by
  rcases quantize_cases cfg v m with ⟨d, _, hbelow, _, ⟨hq, hlo⟩ | ⟨hq, hlo, hhi⟩⟩ | ⟨_, hmiss, _⟩
  · rw [hq]
    refine ⟨hlo, fun s hs => ?_⟩
    have := MissesBelow.le_natAbs hbelow hs
    omega
  · rw [hq]
    refine ⟨hhi, fun s hs => ?_⟩
    have := MissesBelow.le_natAbs hbelow hs
    have hne : s ≠ candidate cfg v - d := by rintro rfl; rw [hlo] at hs; cases hs
    omega
  · rw [hmiss] at h; cases h

/-- An acceptable semitone twelve away makes the candidate itself acceptable, being of its class. -/
theorem acceptable_candidate_of_twelve {s : Int} (hs : acceptable cfg m s = true)
    (hdist : (s - candidate cfg v).natAbs = 12) : acceptable cfg m (candidate cfg v) = true := by
  obtain ⟨_, _, hclass⟩ := (acceptable_iff ..).1 hs
  obtain ⟨hc0, hctop⟩ := candidate_mem cfg v
  refine (acceptable_iff ..).2 ⟨hc0, hctop, ?_⟩
  rwa [show candidate cfg v % 12 = s % 12 by omega]

/-- The quantizer hits exactly when some acceptable semitone is at most 11 from the candidate (R89). -/
theorem quantize_hit_iff : (quantize cfg v m).2 = false ↔
    ∃ s, acceptable cfg m s = true ∧ (s - candidate cfg v).natAbs ≤ 11 := by
  constructor
  · intro h
    rcases quantize_cases cfg v m with ⟨d, hd, _, _, hq⟩ | ⟨_, hmiss, _⟩
    · obtain ⟨s, hs, hdist⟩ :
          ∃ s, acceptable cfg m s = true ∧ (s - candidate cfg v).natAbs = d := by
        rcases hq with ⟨_, hlo⟩ | ⟨_, _, hhi⟩
        · exact ⟨_, hlo, by omega⟩
        · exact ⟨_, hhi, by omega⟩
      rcases Nat.lt_or_eq_of_le hd with hlt | rfl
      · exact ⟨s, hs, by omega⟩
      · exact ⟨_, acceptable_candidate_of_twelve hs hdist, by omega⟩
    · rw [hmiss] at h; cases h
  · rintro ⟨s, hs, hdist⟩
    by_contra hmiss
    have := (quantize_miss (by simpa using hmiss)).2.le_natAbs hs
    omega

/-- A hit is at most 11 from the candidate. -/
theorem quantize_dist_le (h : (quantize cfg v m).2 = false) :
    ((quantize cfg v m).1.toNat - candidate cfg v).natAbs ≤ 11 := by
  obtain ⟨s, hs, hdist⟩ := quantize_hit_iff.1 h
  exact ((quantize_nearest h).2 s hs).1.trans hdist

/-- The quantizer hits exactly when its answer is in-scale. -/
theorem quantize_hit_iff_inScale : (quantize cfg v m).2 = false ↔
    m.getLsbD (((quantize cfg v m).1.toNat : Int) % 12).toNat = true := by
  have hle := quantize_le cfg v m
  constructor
  · intro h
    exact ((acceptable_iff ..).1 (quantize_nearest h).1).2.2
  · intro hclass
    by_contra hmiss
    obtain ⟨hq, hnone⟩ := quantize_miss (by simpa using hmiss)
    have := hnone.le_natAbs ((acceptable_iff ..).2 ⟨by omega, by omega, hclass⟩)
    omega

end

/-- Settles O20, by `quantize_of_hit_below`, `quantize_of_hit_above` and `quantize_of_no_hit`. -/
theorem searchReturnsTheFirstHitBelowBeforeAbove :
    Obligations.SearchReturnsTheFirstHitBelowBeforeAbove := by
  intro cfg v m c ok
  have hok : ∀ s, ok s ↔ acceptable cfg m s = true := fun s => (acceptable_iff cfg m s).symm
  obtain ⟨hc0, hctop⟩ := candidate_mem cfg v
  simp only [hok, Bool.not_eq_true]
  refine ⟨fun d hd hbelow => ⟨quantize_of_hit_below hd hbelow, quantize_of_hit_above hd hbelow⟩,
    fun hnone => ?miss⟩
  case miss =>
    obtain ⟨hq, hmiss⟩ := quantize_of_no_hit (v := v) fun e he => hnone e (by omega)
    refine ⟨hq, hmiss, hc0, hctop, ?_⟩
    have hhit := mt quantize_hit_iff_inScale.2 (by rw [hmiss]; exact Bool.noConfusion)
    rwa [hq, Bool.not_eq_true] at hhit

/-- Settles O23: the nearest semitone by `quantize_nearest`, the bound by `quantize_dist_le`. -/
theorem quantizeReturnsTheNearestInScaleSemitone :
    Obligations.QuantizeReturnsTheNearestInScaleSemitone := by
  intro cfg v m q c ok
  have hok : ∀ s, ok s ↔ acceptable cfg m s = true := fun s => (acceptable_iff cfg m s).symm
  simp only [hok, Bool.not_eq_true]
  refine ⟨fun hhit => ?_, fun hnone => ?_, fun htop => ?_⟩
  · obtain ⟨hq, hnearest⟩ := quantize_nearest hhit
    exact ⟨hq, quantize_dist_le hhit, hnearest⟩
  · by_contra hhit
    obtain ⟨s, hs, hdist⟩ := quantize_hit_iff.1 (by simpa using hhit)
    have := MissesBelow.le_natAbs hnone hs
    omega
  · have hr : rhaz (0x0016666#25 : SFix).toInt = 1 := by decide
    exact quantize_of_step_down 0 hr (by omega) (by rw [hr]; decide) (by decide)

/-! ### When the fallback cannot happen -/

section
variable {cfg : Cfg} {v : SFix} {m : Mask}

/-- A rooted mask hits at the class 0 at or below the candidate (R88 (a)). -/
theorem quantize_hit_of_rooted (h : m.rooted = true) : (quantize cfg v m).2 = false := by
  obtain ⟨hc0, hctop⟩ := candidate_mem cfg v
  refine quantize_hit_iff.2 ⟨candidate cfg v - candidate cfg v % 12,
    (acceptable_iff ..).2 ⟨by omega, by omega, ?_⟩, by omega⟩
  rwa [show ((candidate cfg v - candidate cfg v % 12) % 12).toNat = 0 by omega]

/-- In a range of at least twelve semitones, some semitone of a class is at most 11 from `c`: the one in
the octave block of `c`, or, where the range ends before it, the one an octave lower. -/
theorem exists_near_of_class {c top : Int} {k : Nat} (hk : k < 12) (hc0 : 0 ≤ c) (hctop : c ≤ top)
    (htop : 11 ≤ top) : ∃ s, 0 ≤ s ∧ s ≤ top ∧ (s % 12).toNat = k ∧ (s - c).natAbs ≤ 11 := by
  rcases le_or_gt (c - c % 12 + k) top with hle | hgt
  · exact ⟨c - c % 12 + k, by omega, hle, by omega, by omega⟩
  · exact ⟨c - c % 12 + k - 12, by omega, by omega, by omega, by omega⟩

/-- A mask that is not zero hits in every range of at least twelve semitones (R88 (b)). -/
theorem quantize_hit_of_wf (hm : m.wf = true) (hcfg : cfg.wf = true) : (quantize cfg v m).2 = false := by
  obtain ⟨k, hk, hclass⟩ := exists_class (m := m) (by simpa [Mask.wf] using hm)
  obtain ⟨hc0, hctop⟩ := candidate_mem cfg v
  have htop : 11 ≤ cfg.maxSemitones.val := by simpa [Cfg.wf] using hcfg
  obtain ⟨s, hs0, hstop, hsk, hdist⟩ := exists_near_of_class hk hc0 hctop (by omega)
  exact quantize_hit_iff.2 ⟨s, (acceptable_iff ..).2 ⟨hs0, hstop, by rwa [hsk]⟩, hdist⟩

/-- The empty mask never hits (R88 (c)). -/
theorem quantize_miss_of_empty (cfg : Cfg) (v : SFix) : (quantize cfg v 0).2 = true := by
  by_contra hhit
  have hclass := quantize_hit_iff_inScale.1 (by simpa using hhit)
  simp at hclass

/-- The quantizer's answer at a known top of the range. -/
theorem quantize_of_top {top : Fin 256} (h : cfg.maxSemitones = top) (v : SFix) (m : Mask) :
    quantize cfg v m = quantize ⟨top, 0, 0⟩ v m :=
  quantize_congr h v m

end

/-- Settles O22: the three laws, and the instances by evaluation at their tops. -/
theorem fallbackIsUnreachableForWellFormedScales :
    Obligations.FallbackIsUnreachableForWellFormedScales := by
  refine ⟨fun cfg v m => ⟨quantize_hit_of_rooted, quantize_hit_of_wf, ?_⟩, fun cfg => ⟨?_, ?_, ?_⟩⟩
  · rintro rfl; exact quantize_miss_of_empty cfg v
  · intro h; rw [quantize_of_top h]; decide
  · intro h; rw [quantize_of_top h]; decide
  · intro h; rw [quantize_of_top h]; decide

/-! ### The source's properties -/

section
variable {cfg : Cfg} {m : Mask}

/-- Below a value in range, only the lower end of the range matters. -/
theorem acceptable_sub_iff {r : Int} (h : r ≤ cfg.maxSemitones.val) (e : Nat) :
    acceptable cfg m (r - e) = true ↔ 0 ≤ r - e ∧ m.getLsbD ((r - e) % 12).toNat = true := by
  rw [acceptable_iff]
  exact and_congr_right fun _ => and_iff_right (by omega)

/-- Above a value in range, only the upper end of the range matters. -/
theorem acceptable_add_iff {r : Int} (h : 0 ≤ r) (e : Nat) :
    acceptable cfg m (r + e) = true ↔
      r + e ≤ cfg.maxSemitones.val ∧ m.getLsbD ((r + e) % 12).toNat = true := by
  rw [acceptable_iff]
  exact and_iff_right (by omega)

end

/-- Settles O21: (a) by `quantize_hit_iff_inScale`, (b) is a hit at radius 0, (c) the first hit at the
radius of the tie, (d) two values that step down. -/
theorem quantizerPropertiesOfTheSource : Obligations.QuantizerPropertiesOfTheSource := by
  intro cfg v m q r top inMask
  refine ⟨⟨Int.ofNat_le.2 (quantize_le cfg v m), quantize_hit_iff_inScale, ?empty⟩, ?idempotent, ?tie,
    fun htop => ?major, fun htop => ?pentatonic⟩
  case empty => rintro rfl; simp [inMask]
  case idempotent =>
    intro hr0 hrtop hr
    have hc : candidate cfg v = r := candidate_of_mem hr0 hrtop
    have hok : acceptable cfg m (candidate cfg v) = true := by
      rw [hc]; exact (acceptable_iff ..).2 ⟨hr0, hrtop, hr⟩
    exact (quantize_of_acceptable hok).1.trans hc
  case tie =>
    intro d hd hr0 hrtop hbelow hlo hhi hdtop
    have hc : candidate cfg v = r := candidate_of_mem hr0 hrtop
    have hmisses : MissesBelow cfg m (candidate cfg v) d := by
      intro e he
      rw [hc, ← Bool.not_eq_true, ← Bool.not_eq_true, acceptable_sub_iff hrtop, acceptable_add_iff hr0]
      exact hbelow e he
    have hsub := acceptable_sub_iff (m := m) hrtop d
    have hadd := (acceptable_add_iff (m := m) hr0 d).2 ⟨hdtop, hhi⟩
    rw [← hc] at hsub hadd
    rw [← hc]
    refine ⟨fun h0 => ?_, fun hneg => ?_⟩
    · exact (quantize_of_hit_below hd hmisses (hsub.2 ⟨h0, by rw [hc]; exact hlo⟩)).1
    · exact (quantize_of_hit_above hd hmisses (by rw [← Bool.not_eq_true, hsub]; omega) hadd).1
  case major =>
    have hr : rhaz (0x0010000#25 : SFix).toInt = 1 := by decide
    exact quantize_of_step_down 0 hr (by omega) (by rw [hr]; decide) (by decide)
  case pentatonic =>
    have hr : rhaz (0x0060000#25 : SFix).toInt = 6 := by decide
    exact quantize_of_step_down 5 hr (by omega) (by rw [hr]; decide) (by decide)

/-! ### `QNT` -/

/-- Where every class is in the scale, the candidate is the answer. -/
theorem quantize_of_full (cfg : Cfg) (v : SFix) :
    ((quantize cfg v 0xFFF#12).1.toNat : Int) = candidate cfg v ∧ (quantize cfg v 0xFFF#12).2 = false := by
  obtain ⟨hc0, hctop⟩ := candidate_mem cfg v
  have hfull : ∀ k < 12, (0xFFF#12).getLsbD k = true := by decide
  exact quantize_of_acceptable ((acceptable_iff ..).2 ⟨hc0, hctop, hfull _ (by omega)⟩)

/-- Settles O24: the decoder's format Q, `execQnt`, and the corner cases by the laws above or by evaluation
at the top 60. -/
theorem qntReturnsTheQuantizedSemitone : Obligations.QntReturnsTheQuantizedSemitone := by
  refine ⟨fun w h => decode_of_opcode h, fun value mask s => ⟨_, rfl, rfl, rfl, rfl, rfl⟩,
    fun cfg h => ?corners, by decide⟩
  refine ⟨fun value => candidate_of_neg, ?_, ?_, ?_, fun value => ?_, quantize_of_full cfg, ?_⟩
  · rw [candidate_of_top h]; decide
  · rw [quantize_of_top h]; decide
  · rw [quantize_of_top h]; decide
  · have hmiss := quantize_miss_of_empty cfg value
    exact ⟨(quantize_miss hmiss).1, hmiss⟩
  · rw [quantize_of_top h]; decide

/-! ## Commands that write no register -/

/-- Commands that write no register may be left out of a run: the others see the same registers, and that is
all they see but the configuration (R227). -/
theorem runInstrs_filter_writesRegisters (is : List Instr) {s s' : State} (hcfg : s.cfg = s'.cfg)
    (hregs : s.regs = s'.regs) :
    (runInstrs is s).regs = (runInstrs (is.filter writesRegisters) s').regs := by
  induction is generalizing s s' with
  | nil => exact hregs
  | cons i is ih =>
    cases hi : writesRegisters i
    · rw [List.filter_cons_of_neg (by simp [hi])]
      exact ih ((afterInstr_cfg s i).trans hcfg) ((afterInstr_pure s hi).trans hregs)
    · rw [List.filter_cons_of_pos hi]
      exact ih (by simpa using hcfg) (afterInstr_congr i hcfg hregs).1

/-- Settles O52, by `runInstrs_filter_writesRegisters`. -/
theorem pureCommandsChangeNoOutcome : Obligations.PureCommandsChangeNoOutcome := by
  have hfilter := fun is (s : State) => runInstrs_filter_writesRegisters is (s := s) rfl rfl
  exact ⟨hfilter, fun is ks s hticks => (hfilter is s).trans (by rw [hticks])⟩

end Sys2Proof.Machine

namespace Sys2Proof.Machine

/-! ## The glide filter

The step count (41_glide.md rule R102), the division (R104), what one call does to the difference between
`target` and `current` (R103, R105, R107, R109), and from it where repeated calls end (R108). -/

/-! ### The step count -/

/-- Up to 1022 the step count grows by 1 every 32 values of the control. -/
theorem steps_of_le {ctl : Ctl} (h : ctl.toNat ≤ 1022) : steps ctl = 1 + ctl.toNat / 32 := by
  unfold steps; omega

theorem steps_eq_one_iff (ctl : Ctl) : steps ctl = 1 ↔ ctl.toNat ≤ 31 := by
  unfold steps; omega

theorem steps_eq_top_iff (ctl : Ctl) : steps ctl = 33 ↔ ctl.toNat = 1023 := by
  have := ctl.isLt
  unfold steps; omega

theorem steps_mono {a b : Ctl} (h : a.toNat ≤ b.toNat) : steps a ≤ steps b :=
  Nat.add_le_add_left (Nat.div_le_div_right (Nat.mul_le_mul_left 32 h)) 1

/-- Settles O25: at `REF` the controls outside the snap region begin at 40. -/
theorem stepCountIsTheLinearMap : Obligations.StepCountIsTheLinearMap := by
  refine ⟨fun ctl => ⟨rfl, (steps_mem ctl).1, (steps_mem ctl).2, steps_of_le, steps_eq_one_iff ctl,
    steps_eq_top_iff ctl⟩, by decide, by decide, fun _ _ => steps_mono, fun ctl h => ?ref⟩
  have h40 : 40 ≤ ctl.toNat := h
  have h2 : 2 ≤ steps ctl := steps_mono (a := 40) h40
  exact ⟨h2, fun h63 => le_antisymm (steps_mono (b := 63) h63) h2⟩

/-! ### The division toward zero -/

theorem tdiv_of_nonneg {a : Int} (b : Nat) (h : 0 ≤ a) : tdiv a b = ⌊(a : Rat) / b⌋ := by
  rw [Rat.floor_intCast_div_natCast, tdiv_eq_int_tdiv, Int.tdiv_eq_ediv_of_nonneg h]

theorem tdiv_of_nonpos {a : Int} (b : Nat) (h : a ≤ 0) : tdiv a b = -⌊(-a : Rat) / b⌋ := by
  rw [← Int.cast_neg, ← tdiv_of_nonneg b (Int.neg_nonneg_of_nonpos h), tdiv_neg, neg_neg]

section
variable (a : Int) (b : Nat)

/-- The error is the fractional part of the quotient of the absolute values. -/
theorem abs_tdiv_sub_lt_one : |(tdiv a b : Rat) - (a : Rat) / b| < 1 := by
  rcases Int.le_total 0 a with h | h
  · rw [tdiv_of_nonneg b h, abs_sub_comm, Int.self_sub_floor, Int.abs_fract]
    exact Int.fract_lt_one _
  · have hneg : (a : Rat) / b = -((-a : Rat) / b) := by rw [neg_div, neg_neg]
    rw [tdiv_of_nonpos b h, hneg, Int.cast_neg, neg_sub_neg, Int.self_sub_floor, Int.abs_fract]
    exact Int.fract_lt_one _

/-- A natural number with the sign of `a` put before it is 0 or has the sign of `a`. -/
theorem sign_mul_eq_zero_or_sign_eq (k : Nat) : a.sign * k = 0 ∨ (a.sign * k).sign = a.sign := by
  rcases Nat.eq_zero_or_pos k with rfl | hk
  · exact .inl (by simp)
  · exact .inr (by rw [Int.sign_mul, Int.sign_sign, Int.sign_natCast_of_ne_zero hk.ne', Int.mul_one])

theorem tdiv_eq_zero_or_sign_eq : tdiv a b = 0 ∨ (tdiv a b).sign = a.sign :=
  sign_mul_eq_zero_or_sign_eq a _

theorem natAbs_tdiv : (tdiv a b).natAbs = a.natAbs / b := by
  rw [tdiv_eq_int_tdiv]; exact Int.natAbs_tdiv a b

/-- What a division leaves of the dividend: the dividend's sign, and of its absolute value the rest. -/
theorem sub_tdiv : a - tdiv a b = a.sign * ((a.natAbs - a.natAbs / b : Nat) : Int) := by
  rw [Int.ofNat_sub (Nat.div_le_self ..), Int.mul_sub, Int.sign_mul_natAbs, tdiv]

theorem sub_tdiv_eq_zero_or_sign_eq : a - tdiv a b = 0 ∨ (a - tdiv a b).sign = a.sign := by
  rw [sub_tdiv]; exact sign_mul_eq_zero_or_sign_eq a _

theorem natAbs_sub_tdiv : (a - tdiv a b).natAbs = a.natAbs - a.natAbs / b := by
  rcases eq_or_ne a 0 with rfl | ha
  · simp [tdiv]
  · rw [sub_tdiv, Int.natAbs_mul, Int.natAbs_sign_of_ne_zero ha, Int.natAbs_natCast, Nat.one_mul]

end

/-- Settles O26. -/
theorem glideDivisionTruncatesTowardZero : Obligations.GlideDivisionTruncatesTowardZero := by
  refine ⟨fun a b _ => ⟨tdiv_of_nonneg b, fun h => tdiv_of_nonpos b h.le, tdiv_neg a b,
    abs_tdiv_sub_lt_one a b⟩, ?_⟩
  decide

/-! ### One call -/

/-- The difference `diff` of R103: how far, and in which direction, `target` lies from `current`. -/
def glideDiff (current target : Fix) : Int := (target.toNat : Int) - current.toNat

theorem glideDelta_eq_tdiv (current target : Fix) (ctl : Ctl) :
    glideDelta current target ctl = tdiv (glideDiff current target) (steps ctl) := rfl

theorem glideDiff_eq_zero_iff {current target : Fix} : glideDiff current target = 0 ↔ current = target := by
  rw [← BitVec.toNat_inj]; unfold glideDiff; omega

/-- Settles O27. -/
theorem glideFollowsTheFormula : Obligations.GlideFollowsTheFormula := by
  refine fun cfg current target ctl => ⟨fun h => glide_snap h current target,
    fun h => glide_snap (h ▸ ctl.isLt) current target, fun h => ?_⟩
  rw [← tdiv_eq_int_tdiv]
  exact glide_move h current target

/-- Settles O28: the move by the laws of `tdiv`, the result by `glide_between`. -/
theorem glideStaysBetweenCurrentAndTarget : Obligations.GlideStaysBetweenCurrentAndTarget := by
  intro cfg current target ctl
  obtain ⟨hmin, hmax⟩ := glide_between cfg current target ctl
  refine ⟨?_, tdiv_eq_zero_or_sign_eq _ _, hmin, hmax, glide_le⟩
  rw [glideDelta_eq_tdiv, natAbs_tdiv]
  exact Nat.div_le_self ..

section
variable {cfg : Cfg} {ctl : Ctl} (h : cfg.snapThreshold.val ≤ ctl.toNat) (current target : Fix)
include h

/-- One call takes the move off the difference. -/
theorem glideDiff_glide : glideDiff (glide cfg current target ctl) target =
    glideDiff current target - tdiv (glideDiff current target) (steps ctl) := by
  rw [← glideDelta_eq_tdiv, glideDiff, glide_move h, glideDiff]; omega

/-- One call takes the `steps`-th part off the distance (R107). -/
theorem natAbs_glideDiff_glide : (glideDiff (glide cfg current target ctl) target).natAbs =
    (glideDiff current target).natAbs - (glideDiff current target).natAbs / steps ctl := by
  rw [glideDiff_glide h, natAbs_sub_tdiv]

/-- Outside the stall band a call brings the value nearer. -/
theorem natAbs_glideDiff_glide_lt (hfar : steps ctl ≤ (glideDiff current target).natAbs) :
    (glideDiff (glide cfg current target ctl) target).natAbs < (glideDiff current target).natAbs := by
  have hpos := (steps_mem ctl).1
  have := Nat.div_pos hfar hpos
  rw [natAbs_glideDiff_glide h]; omega

/-- Inside the stall band a call changes nothing. -/
theorem glide_of_stall (hnear : (glideDiff current target).natAbs < steps ctl) :
    glide cfg current target ctl = current := by
  have hdelta : glideDelta current target ctl = 0 := by
    rw [← Int.natAbs_eq_zero, glideDelta_eq_tdiv, natAbs_tdiv, Nat.div_eq_of_lt hnear]
  have hmove := glide_move h current target
  rw [hdelta, Int.add_zero] at hmove
  exact BitVec.eq_of_toNat_eq (Int.ofNat_inj.1 hmove)

/-- A call outside the snap region arrives only where it moves the whole distance. -/
theorem glide_eq_target_iff :
    glide cfg current target ctl = target ↔ steps ctl = 1 ∨ current = target := by
  have hle := Nat.div_le_self (glideDiff current target).natAbs (steps ctl)
  calc glide cfg current target ctl = target
    _ ↔ (glideDiff current target).natAbs / steps ctl = (glideDiff current target).natAbs := by
        rw [← glideDiff_eq_zero_iff, ← Int.natAbs_eq_zero, natAbs_glideDiff_glide h]; omega
    _ ↔ steps ctl = 1 ∨ current = target := by
        rw [Nat.div_eq_self, Int.natAbs_eq_zero, glideDiff_eq_zero_iff, or_comm]

end

/-- Settles O29. -/
theorem glideApproachesWithoutOvershoot : Obligations.GlideApproachesWithoutOvershoot := by
  intro cfg current target ctl h before after
  have hdist : after.natAbs = before.natAbs - before.natAbs / steps ctl :=
    natAbs_glideDiff_glide h current target
  refine ⟨hdist, hdist ▸ Nat.sub_le .., natAbs_glideDiff_glide_lt h current target, ?_⟩
  rw [show after = before - tdiv before (steps ctl) from glideDiff_glide h current target]
  exact sub_tdiv_eq_zero_or_sign_eq before (steps ctl)

/-- Settles O31: in the snap region by `glide_snap`, outside it by `glide_eq_target_iff`. -/
theorem glideArrivesExactlyInTheListedCases : Obligations.GlideArrivesExactlyInTheListedCases := by
  intro cfg current target ctl
  rcases Nat.lt_or_ge ctl.toNat cfg.snapThreshold.val with hs | hs
  · exact iff_of_true (glide_snap hs current target) (.inl hs)
  · rw [glide_eq_target_iff hs, or_iff_right hs.not_gt]

/-! ### Repeated calls -/

theorem glideTimes_add (cfg : Cfg) (target : Fix) (ctl : Ctl) (n k : Nat) (current : Fix) :
    glideTimes cfg target ctl (n + k) current =
      glideTimes cfg target ctl k (glideTimes cfg target ctl n current) := by
  induction n generalizing current with
  | zero => rw [Nat.zero_add]; rfl
  | succ n ih => rw [Nat.succ_add]; exact ih _

section
variable {cfg : Cfg} {target : Fix} {ctl : Ctl} (h : cfg.snapThreshold.val ≤ ctl.toNat)
include h

/-- Inside the stall band no number of calls changes anything. -/
theorem glideTimes_of_stall {current : Fix} (hnear : (glideDiff current target).natAbs < steps ctl)
    (n : Nat) : glideTimes cfg target ctl n current = current := by
  induction n with
  | zero => rfl
  | succ n ih => rw [glideTimes, glide_of_stall h current target hnear, ih]

/-- Every value is in the stall band after some number of calls, since each call outside it shrinks the
distance. -/
theorem exists_glideTimes_stall (current : Fix) :
    ∃ n, (glideDiff (glideTimes cfg target ctl n current) target).natAbs < steps ctl := by
  induction hd : (glideDiff current target).natAbs using Nat.strong_induction_on generalizing current with
  | _ d ih =>
    rcases Nat.lt_or_ge d (steps ctl) with hnear | hfar
    · exact ⟨0, hd ▸ hnear⟩
    · have hlt := natAbs_glideDiff_glide_lt h current target (hd ▸ hfar)
      obtain ⟨n, hn⟩ := ih _ (hd ▸ hlt) _ rfl
      exact ⟨n + 1, hn⟩

end

/-- Settles O30, by `exists_glideTimes_stall` and, from there on, `glideTimes_of_stall`. -/
theorem repeatedGlideSettlesInTheStallBand : Obligations.RepeatedGlideSettlesInTheStallBand := by
  intro cfg current target ctl h
  obtain ⟨n, hn⟩ := exists_glideTimes_stall (target := target) h current
  have hbound : steps ctl ≤ 33 := (steps_mem ctl).2
  refine ⟨glideTimes_of_stall h, n, hn, Nat.le_of_lt_succ (hn.trans_le hbound), fun k hk => ?_⟩
  obtain ⟨m, rfl⟩ := Nat.exists_eq_add_of_le hk
  rw [glideTimes_add, glideTimes_of_stall h hn]

/-! ### `GLD` -/

/-- Settles O32: the decoder's format G, `execGld`, and the corner cases by the laws above at the controls
39, 40 (two steps) and 1023 (33 steps). -/
theorem gldReturnsTheGlidedValue : Obligations.GldReturnsTheGlidedValue := by
  refine ⟨fun w h => decode_of_opcode h, fun current target ctl s => ⟨_, rfl, rfl, rfl, rfl, rfl⟩,
    fun target ctl => ?self, fun current target => ⟨?snap, ?halve, fun hnear => ?stall⟩, by decide⟩
  case self => exact (glideArrivesExactlyInTheListedCases ..).2 (.inr (.inr rfl))
  case snap => exact glide_snap (by decide) current target
  case halve => exact (glideFollowsTheFormula Cfg.ref current target 40#10).2.2 (by decide)
  case stall =>
    have hsteps : steps 1023#10 = 33 := by decide
    exact glide_of_stall (by decide) current target (hsteps ▸ Nat.lt_succ_of_le hnear)

end Sys2Proof.Machine

namespace Sys2Proof.Machine

/-! ## The bypass controller

The time since the last accepted press (42_bypass.md rule R121), the three ways a press is not accepted
(R122), and from them the controller's table (R127), its two long-run laws, of the held button (R129) and of
the lockout (R130, R132), and the tick that turns bypass off (45_tick_sequence.md rule R169). -/

/-! ### Elapsed time -/

theorem elapsed_toNat (now tacc : Time) :
    ((elapsed now tacc).toNat : Int) = ((now.toNat : Int) - tacc.toNat) % 2 ^ 32 := by
  have hnow := now.isLt
  have htacc := tacc.isLt
  rw [elapsed, BitVec.toNat_sub]
  omega

/-- A clock that counts modulo `2^32` measures every span shorter than its period. -/
theorem elapsed_ofNat_add {d : Nat} (t : Nat) (h : d < 2 ^ 32) :
    (elapsed (BitVec.ofNat 32 (t + d)) (BitVec.ofNat 32 t)).toNat = d := by
  rw [elapsed, BitVec.ofNat_add, BitVec.add_comm, BitVec.add_sub_cancel, BitVec.toNat_ofNat,
    Nat.mod_eq_of_lt h]

@[simp] theorem elapsed_zero (now : Time) : elapsed now 0#32 = now := BitVec.sub_zero now

/-- Settles O33. -/
theorem elapsedTimeSurvivesAClockWrap : Obligations.ElapsedTimeSurvivesAClockWrap :=
  ⟨elapsed_toNat, fun t _ => elapsed_ofNat_add t⟩

/-! ### When a press is accepted -/

section
variable {cfg : Cfg} {r : Regs}

/-- Inside the lockout nothing fires. -/
theorem fires_of_lockout {now : Time} (h : (elapsed now r.tacc).toNat ≤ cfg.debounceMs.val) (btn : Level) :
    fires cfg r btn now = false :=
  Bool.eq_false_iff.2 fun hf => Nat.not_lt.2 h ((fires_iff ..).1 hf).1

/-- A release never fires. -/
theorem fires_released (cfg : Cfg) (r : Regs) (now : Time) : fires cfg r .released now = false :=
  Bool.eq_false_iff.2 fun hf => Level.noConfusion ((fires_iff ..).1 hf).2.1

/-- Without an edge nothing fires. -/
theorem fires_of_no_edge {btn : Level} (h : r.lvl = btn) (now : Time) : fires cfg r btn now = false := by
  refine Bool.eq_false_iff.2 fun hf => ?_
  obtain ⟨_, hbtn, hlvl⟩ := (fires_iff ..).1 hf
  exact Level.noConfusion (hbtn.symm.trans (h.symm.trans hlvl))

/-- A press after a released level fires exactly outside the lockout. -/
theorem fires_press_iff {now : Time} (h : r.lvl = .released) :
    fires cfg r .pressed now = true ↔ cfg.debounceMs.val < (elapsed now r.tacc).toNat := by
  simp [fires_iff, h]

theorem bypassStep_no_edge {btn : Level} (h : r.lvl = btn) (now : Time) :
    bypassStep cfg r btn now = r := by
  rw [bypassStep_quiet (fires_of_no_edge h now), ← h]

end

theorem debouncePhase_eq_justToggled_iff (cfg : Cfg) (r : Regs) (now : Time) :
    debouncePhase cfg r now = .justToggled ↔ (elapsed now r.tacc).toNat ≤ cfg.debounceMs.val := by
  simp [debouncePhase, late]

theorem debouncePhase_eq_idle_iff (cfg : Cfg) (r : Regs) (now : Time) :
    debouncePhase cfg r now = .idle ↔ cfg.debounceMs.val < (elapsed now r.tacc).toNat := by
  simp [debouncePhase, late]

/-- Settles O36. -/
theorem lockoutPhaseAcceptsNoPress : Obligations.LockoutPhaseAcceptsNoPress := by
  intro cfg r btn now
  have hlock := debouncePhase_eq_justToggled_iff cfg r now
  refine ⟨hlock, fun h => fires_of_lockout (hlock.1 h) btn, fun h hbtn hlvl => ?_⟩
  exact (fires_iff ..).2 ⟨(debouncePhase_eq_idle_iff ..).1 h, hbtn, hlvl⟩

/-! ### One `BYP` -/

/-- Settles O35, row by row: no edge, a press in the lockout, the two late presses, a release. -/
theorem bypassTransitionTable : Obligations.BypassTransitionTable := by
  refine fun btn now s => ⟨_, exec_eq_afterInstr .., ?_⟩
  simp only [afterInstr_byp, State.respond_regs, State.withRegs_regs]
  refine ⟨?idle, ?lockout, ?off, ?on, ?held, ?release⟩
  case idle =>
    rintro hlvl rfl
    exact bypassStep_no_edge hlvl now
  case lockout =>
    rintro - rfl hlate
    exact bypassStep_quiet (fires_of_lockout (Nat.not_lt.1 hlate) _)
  case off =>
    rintro hlvl rfl hlate hbyp
    exact bypassStep_off ((fires_press_iff hlvl).2 hlate) hbyp
  case on =>
    rintro hlvl rfl hlate hbyp
    exact bypassStep_on ((fires_press_iff hlvl).2 hlate) hbyp
  case held =>
    rintro hlvl rfl
    exact bypassStep_no_edge hlvl now
  case release =>
    rintro - rfl
    exact bypassStep_quiet (fires_released ..)

/-- Settles O34: the decoder's format B, the registers by what a controller step leaves in each, and the
corner cases by evaluation but for the release, which never fires. -/
theorem bypStepsTheBypassController : Obligations.BypStepsTheBypassController := by
  refine ⟨fun w h => decode_of_opcode h, fun btn now s => ?step, by decide, by decide, by decide,
    fires_released Cfg.ref, by decide, by decide⟩
  intro fire
  have hfire : fires s.cfg s.regs btn now = true ↔ fire := fires_iff ..
  clear_value fire
  refine ⟨_, exec_eq_afterInstr .., rfl, fun h => ?_, fun h => ?_, fun h ch => ?_, fun h ch => ?_,
    bypassStep_tgt _ _ _ _, rfl, rfl, _, hfire, ?_⟩
  · have hf := hfire.2 h
    simp [bypassStep_byp, bypassStep_tacc, hf]
  · have hf := Bool.eq_false_iff.2 (mt hfire.1 h)
    simp [bypassStep_byp, bypassStep_tacc, hf]
  · simp [bypassStep_cur, hfire.2 h.1, h.2]
  · simp only [← hfire, ← Bool.and_eq_true] at h
    simp [bypassStep_cur, h]
  · simp [zextFlag_eq_setWidth, ResFlags.ofTog]

/-! ### A button held, and the lockout, over a run -/

/-- With the button held, a command that is not a release changes nothing of the controller. -/
theorem afterInstr_held {i : Instr} {s : State} (hi : isRelease i = false) (hs : s.regs.lvl = .pressed) :
    (afterInstr i s).regs.byp = s.regs.byp ∧ (afterInstr i s).regs.tacc = s.regs.tacc ∧
      (afterInstr i s).regs.lvl = .pressed := by
  rcases byp_or_afterInstr_controller i s with ⟨btn, now, rfl⟩ | ⟨hbyp, hlvl, htacc⟩
  · cases btn with
    | pressed => simp [bypassStep_no_edge hs, hs]
    | released => cases hi
  · exact ⟨hbyp, htacc, hlvl.trans hs⟩

/-- With the button held, no run without a release changes anything of the controller (R129). -/
theorem runInstrs_held {is : List Instr} {s : State} (his : ∀ i ∈ is, isRelease i = false)
    (hs : s.regs.lvl = .pressed) :
    (runInstrs is s).regs.byp = s.regs.byp ∧ (runInstrs is s).regs.tacc = s.regs.tacc ∧
      (runInstrs is s).regs.lvl = .pressed :=
  runInstrs_induct (P := fun t => t.regs.byp = s.regs.byp ∧ t.regs.tacc = s.regs.tacc ∧
      t.regs.lvl = .pressed) ⟨rfl, rfl, hs⟩ fun i hi t ⟨hbyp, htacc, hlvl⟩ => by
    rw [← hbyp, ← htacc]
    exact afterInstr_held (his i hi) hlvl

/-- Inside the lockout a command changes neither the flag nor the time stamp. -/
theorem afterInstr_lockout {i : Instr} {s : State}
    (h : ∀ now, stampOf i = some now → (elapsed now s.regs.tacc).toNat ≤ s.cfg.debounceMs.val) :
    (afterInstr i s).regs.byp = s.regs.byp ∧ (afterInstr i s).regs.tacc = s.regs.tacc := by
  refine afterInstr_noPress ?_
  cases i with
  | byp btn now => exact fires_of_lockout (h now rfl) btn
  | _ => rfl

/-- No run inside the lockout changes the flag or the time stamp, so none restarts the interval (R130). -/
theorem runInstrs_lockout {is : List Instr} {s : State} (his : WithinLockout s.cfg s.regs.tacc is) :
    (runInstrs is s).regs.byp = s.regs.byp ∧ (runInstrs is s).regs.tacc = s.regs.tacc := by
  refine (runInstrs_induct (P := fun t => t.cfg = s.cfg ∧ t.regs.byp = s.regs.byp ∧
    t.regs.tacc = s.regs.tacc) ⟨rfl, rfl, rfl⟩ fun i hi t ⟨hcfg, hbyp, htacc⟩ => ?_).2
  rw [← hbyp, ← htacc]
  exact ⟨(afterInstr_cfg t i).trans hcfg, afterInstr_lockout (by rw [hcfg, htacc]; exact his i hi)⟩

/-- Settles O37: the press leaves the button held, for `runInstrs_held`, and the release after it leaves the
edge that the last press needs. -/
theorem pressInsideTheLockoutIsLost : Obligations.PressInsideTheLockoutIsLost := by
  intro s now hlock
  have hlost : bypassStep s.cfg s.regs .pressed now = { s.regs with lvl := .pressed } :=
    bypassStep_quiet (fires_of_lockout hlock _)
  refine ⟨_, exec_eq_afterInstr .., ?_⟩
  rw [afterInstr_byp, hlost]
  refine ⟨rfl, rfl, rfl, fun is his => runInstrs_held his rfl, fun n₁ n₂ hlate => ?_⟩
  have hpress : fires s.cfg { s.regs with lvl := .released } .pressed n₂ = true :=
    (fires_press_iff rfl).2 hlate
  simp [runInstrs, bypassStep_quiet (fires_released ..), bypassStep_byp, hpress]

/-- Settles O38: the accepted press is the time stamp the lockout is measured from. -/
theorem edgesWithinTheIntervalGiveOneToggle : Obligations.EdgesWithinTheIntervalGiveOneToggle := by
  intro s t now hexec htog is his
  obtain rfl := eq_afterInstr hexec
  have hf : fires s.cfg s.regs .pressed now = true := by
    rw [fires_eq_toggled]; exact decide_eq_true htog
  have htacc : (afterInstr (.byp .pressed now) s).regs.tacc = now := by simp [bypassStep_tacc, hf]
  have hrun := runInstrs_lockout (s := afterInstr (.byp .pressed now) s) (by rwa [afterInstr_cfg, htacc])
  rwa [htacc] at hrun

/-- Settles O39: from reset the lockout is measured from time 0, and after the first press the button is
held. -/
theorem startUpLockoutAndHeldButton : Obligations.StartUpLockoutAndHeldButton := by
  refine ⟨fun cfg is his => runInstrs_lockout (s := State.resetWith cfg) his, fun cfg first is his => ?_⟩
  rw [runInstrs, (runInstrs_held his rfl).1]
  have hpress := fires_press_iff (cfg := cfg) (now := first) Regs.reset_lvl
  simpa [bypassStep_byp] using hpress

/-! ### The tick that turns bypass off -/

theorem toFix_injective : Function.Injective toFix := by
  intro a b h
  have hnat : a.toNat * 65536 = b.toNat * 65536 := by rw [← toFix_toNat, ← toFix_toNat, h]
  exact BitVec.eq_of_toNat_eq (Nat.eq_of_mul_eq_mul_right (by omega) hnat)

/-- A glide between whole semitones stands still only where it has arrived: different semitones are further
apart than the stall band is wide. -/
theorem glide_toFix_eq_left_iff (cfg : Cfg) (a b : Sem) (ctl : Ctl) :
    glide cfg (toFix a) (toFix b) ctl = toFix a ↔ b = a := by
  refine ⟨fun hstill => ?_, ?_⟩
  · rcases Nat.lt_or_ge ctl.toNat cfg.snapThreshold.val with hs | hs
    · exact toFix_injective ((glide_snap hs ..).symm.trans hstill)
    · by_contra hne
      have hnat : b.toNat ≠ a.toNat := mt BitVec.eq_of_toNat_eq hne
      have hfar : steps ctl ≤ (glideDiff (toFix a) (toFix b)).natAbs := by
        have hsteps := (steps_mem ctl).2
        rw [glideDiff, toFix_toNat, toFix_toNat]
        omega
      have hcloser := natAbs_glideDiff_glide_lt hs (toFix a) (toFix b) hfar
      rw [hstill] at hcloser
      exact Nat.lt_irrefl _ hcloser
  · rintro rfl
    exact (glideArrivesExactlyInTheListedCases ..).2 (.inr (.inr rfl))

/-- The quantizer input a tick carries for a channel. -/
def Tick.value (k : Tick) : Chan → SFix
  | .ch0 => k.value0
  | .ch1 => k.value1

/-- A tick whose `BYP` leaves bypass off updates every channel from what the `BYP` left there. -/
theorem runInstrs_expand_of_off {k : Tick} {s : State}
    (h : (afterInstr (.byp k.btn k.now) s).regs.byp = false) (ch : Chan) :
    (runInstrs k.expand s).regs.tgt ch = channelTarget s.cfg (k.value ch) k.mask k.tr ∧
    (runInstrs k.expand s).regs.cur ch = channelCurrent s.cfg
      ((afterInstr (.byp k.btn k.now) s).regs.cur ch) (k.value ch) k.mask k.tr k.ctl := by
  have hcfg := afterInstr_cfg s (.byp k.btn k.now)
  simp only [Tick.expand, runInstrs]
  generalize afterInstr (.byp k.btn k.now) s = mid at h hcfg ⊢
  rw [afterInstr_chu_run mid h, afterInstr_chu_run _ (by simpa using h)]
  cases ch <;> simp [Tick.value, hcfg, Regs.setChannel_cur_other, Regs.setChannel_tgt_other]

/-- A tick that turns bypass off resyncs the channels and updates them from there. -/
theorem runInstrs_expand_of_reenable {k : Tick} {s : State} (hbyp : s.regs.byp = true)
    (hf : fires s.cfg s.regs k.btn k.now = true) (ch : Chan) :
    (afterInstr (.byp k.btn k.now) s).regs.cur ch = toFix (s.regs.tgt ch) ∧
    (runInstrs k.expand s).regs.tgt ch = channelTarget s.cfg (k.value ch) k.mask k.tr ∧
    (runInstrs k.expand s).regs.cur ch =
      glide s.cfg (toFix (s.regs.tgt ch)) (toFix ((runInstrs k.expand s).regs.tgt ch)) k.ctl := by
  have hmid : (afterInstr (.byp k.btn k.now) s).regs.cur ch = toFix (s.regs.tgt ch) := by
    simp [bypassStep_cur, hf, hbyp]
  have hoff : (afterInstr (.byp k.btn k.now) s).regs.byp = false := by simp [bypassStep_byp, hf, hbyp]
  obtain ⟨htgt, hcur⟩ := runInstrs_expand_of_off hoff ch
  refine ⟨hmid, htgt, ?_⟩
  rw [hcur, hmid, htgt, channelCurrent]

/-- Settles O45, by `runInstrs_expand_of_reenable` channel by channel; the rule's example is channel 0 of it,
evaluated. -/
theorem reenablingTickGlidesFromTheResyncedValue :
    Obligations.ReenablingTickGlidesFromTheResyncedValue := by
  refine ⟨fun k s hbyp hf => ?general, fun r now _ htgt hbyp hf => ?worked⟩
  case general =>
    have htick := runInstrs_expand_of_reenable hbyp hf
    refine ⟨by simp [bypassStep_byp, hf, hbyp], fun ch => (htick ch).1, (htick .ch0).2.1, (htick .ch1).2.1,
      fun ch => (htick ch).2.2, fun ch => ?_⟩
    rw [(htick ch).2.2]
    exact glide_toFix_eq_left_iff ..
  case worked =>
    intro s k
    obtain ⟨hresync, htarget, hglide⟩ := runInstrs_expand_of_reenable (k := k) (s := s) hbyp hf .ch0
    have hold : s.regs.tgt .ch0 = 20#8 := htgt
    have hthirty : channelTarget Cfg.ref 0x01E0000#25 0xFFF#12 0#8 = 30#8 := by decide
    have hnew : (runInstrs k.expand s).regs.tgt .ch0 = 30#8 := htarget.trans hthirty
    rw [hold] at hresync
    rw [hold, hnew] at hglide
    have hglided : glide Cfg.ref (toFix 20#8) (toFix 30#8) 1023#10 = 0x144D93#24 := by decide
    exact ⟨hresync.trans (by decide), hnew, hglide.trans hglided⟩

end Sys2Proof.Machine

namespace Sys2Proof.Machine

/-! ## The channel update

What a `CHU` leaves in each register, field by field (43_channel.md rule R144), and from it that the channels
do not interfere (R147) and that bypass freezes them (R141); and when a new target is in-scale (R146). -/

/-! ### The registers after a `CHU` -/

section
variable (ch : Chan) (value : SFix) (mask : Mask) (tr : Tr) (ctl : Ctl) (s : State)

/-- The registers after a `CHU`: nothing is written under bypass (R141), else its channel alone. -/
theorem afterInstr_chu_regs : (afterInstr (.chu ch value mask tr ctl) s).regs =
    if s.regs.byp then s.regs
    else s.regs.setChannel ch (channelTarget s.cfg value mask tr)
      (channelCurrent s.cfg (s.regs.cur ch) value mask tr ctl) := by
  cases hb : s.regs.byp
  · simp [afterInstr_chu_run s hb]
  · simp [afterInstr_chu_skip s hb]

/-- The current value a `CHU` leaves in its channel: the frozen one under bypass (R141), else the glided one
(R143). -/
theorem afterInstr_chu_cur : (afterInstr (.chu ch value mask tr ctl) s).regs.cur ch =
    if s.regs.byp then s.regs.cur ch else channelCurrent s.cfg (s.regs.cur ch) value mask tr ctl := by
  rw [afterInstr_chu_regs]
  cases s.regs.byp <;> simp

/-- The target a `CHU` leaves in its channel: the frozen one under bypass (R141), else the new one (R142). -/
theorem afterInstr_chu_tgt : (afterInstr (.chu ch value mask tr ctl) s).regs.tgt ch =
    if s.regs.byp then s.regs.tgt ch else channelTarget s.cfg value mask tr := by
  rw [afterInstr_chu_regs]
  cases s.regs.byp <;> simp

/-- A `CHU` writes nothing of the other channel. -/
theorem afterInstr_chu_other {o : Chan} (h : o ≠ ch) :
    (afterInstr (.chu ch value mask tr ctl) s).regs.cur o = s.regs.cur o ∧
      (afterInstr (.chu ch value mask tr ctl) s).regs.tgt o = s.regs.tgt o := by
  rw [afterInstr_chu_regs]
  cases s.regs.byp <;> simp [Regs.setChannel_cur_other, Regs.setChannel_tgt_other, h]

end

/-! ### The new target -/

section
variable {cfg : Cfg} {value : SFix} {mask : Mask} {tr : Tr}

/-- A transposed semitone at or below 0 is clamped to 0. -/
theorem channelTarget_of_nonpos (h : ((quantize cfg value mask).1.toNat : Int) + transposeOf tr ≤ 0) :
    channelTarget cfg value mask tr = 0 := by
  rw [channelTarget, clamp_of_le h (Int.natCast_nonneg _)]; rfl

/-- A transposed semitone at or above the top is clamped to the top. -/
theorem channelTarget_of_top_le
    (h : (cfg.maxSemitones.val : Int) ≤ ((quantize cfg value mask).1.toNat : Int) + transposeOf tr) :
    channelTarget cfg value mask tr = BitVec.ofInt 8 cfg.maxSemitones.val := by
  rw [channelTarget, clamp_of_ge h (Int.natCast_nonneg _)]

end

/-- Moving by whole octaves does not leave the class. -/
theorem inScale_add_of_dvd (m : Mask) (q : Int) {t : Int} (h : 12 ∣ t) : inScale m (q + t) = inScale m q := by
  have hclass : mod12 (q + t) = mod12 q := by rw [mod12_eq_emod, mod12_eq_emod]; omega
  rw [inScale, hclass, inScale]

/-- A hit is in-scale. -/
theorem inScale_quantize {cfg : Cfg} {v : SFix} {m : Mask} (h : (quantize cfg v m).2 = false) :
    inScale m ((quantize cfg v m).1.toNat : Int) = true := by
  rw [inScale, hasClass, mod12_eq_emod]
  exact quantize_hit_iff_inScale.1 h

/-- Settles O41: unclamped, the target is a hit moved by whole octaves. -/
theorem storedTargetNeedNotBeInScale : Obligations.StoredTargetNeedNotBeInScale := by
  refine ⟨fun cfg value mask tr hhit hoct h0 htop => ?_, by decide, by decide⟩
  have hsum : ((channelTarget cfg value mask tr).toNat : Int) =
      (quantize cfg value mask).1.toNat + tr.toInt :=
    (channelTarget_toNat ..).trans (clamp_of_mem h0 htop)
  rw [hsum, inScale_add_of_dvd mask _ hoct]
  exact inScale_quantize hhit

/-! ### `CHU` -/

/-- Settles O40: the decoder's format C, the registers by what a `CHU` leaves in each, and the corner cases by
the laws of the new target and of the snap region or by evaluation. -/
theorem chuUpdatesItsChannel : Obligations.ChuUpdatesItsChannel := by
  refine ⟨fun w h => decode_of_opcode h, fun ch value mask tr ctl s => ?step, by decide, by decide,
    fun value mask => ⟨?lowest, ?highest⟩, fun value tr => ?empty,
    fun old value mask tr ctl h => glide_snap h old _, by decide, by decide⟩
  case step =>
    obtain ⟨hbyp, hlvl, htacc⟩ :=
      afterInstr_not_byp (i := .chu ch value mask tr ctl) s fun _ _ => Instr.noConfusion
    refine ⟨_, exec_eq_afterInstr .., fun o => afterInstr_chu_other ch value mask tr ctl s, hbyp, hlvl, htacc,
      afterInstr_cfg .., afterInstr_input .., fun hb => ?skip, fun hb => ?run⟩
    case skip => rw [afterInstr_chu_skip s hb]; exact ⟨rfl, rfl⟩
    case run =>
      rw [afterInstr_chu_res, afterInstr_chu_cur, afterInstr_chu_tgt]
      simp only [hb, Bool.false_eq_true, if_false]
      exact ⟨channelTarget_toNat .., rfl, by simp⟩
  case lowest =>
    have hq : (quantize Cfg.ref value mask).1.toNat ≤ 60 := quantize_le ..
    have htr : transposeOf 0x80#8 = -128 := by decide
    exact channelTarget_of_nonpos (by omega)
  case highest =>
    have htr : transposeOf 0x7F#8 = 127 := by decide
    have htop : (Cfg.ref.maxSemitones.val : Int) = 60 := by decide
    exact channelTarget_of_top_le (by omega)
  case empty =>
    have hmiss : (quantize Cfg.ref value 0x000#12).2 = true := quantize_miss_of_empty Cfg.ref value
    refine ⟨hmiss, (channelTarget_toNat ..).trans ?_⟩
    rw [(quantize_miss hmiss).1]; rfl

/-! ### The two channels -/

/-- Settles O43: each field a `CHU` leaves in its channel is a function of what the hypotheses fix, and its
writes are `setChannel`s of different channels. -/
theorem channelsAreIndependent : Obligations.ChannelsAreIndependent := by
  refine ⟨fun ch value mask tr ctl s s' hcfg hbyp hcur htgt => ?reads,
    fun v0 v1 m0 m1 r0 r1 c0 c1 s => ?order⟩
  case reads =>
    have hcur' : (afterInstr (.chu ch value mask tr ctl) s).regs.cur ch =
        (afterInstr (.chu ch value mask tr ctl) s').regs.cur ch := by
      rw [afterInstr_chu_cur, afterInstr_chu_cur, hcfg, hbyp, hcur]
    refine ⟨hcur', ?_, ?_, fun o => afterInstr_chu_other ch value mask tr ctl s⟩
    · rw [afterInstr_chu_tgt, afterInstr_chu_tgt, hcfg, hbyp, htgt]
    · rw [afterInstr_chu_res, afterInstr_chu_res, hcur', hcfg, hbyp]
  case order =>
    have hne : Chan.ch1 ≠ .ch0 := by decide
    simp only [runInstrs, afterInstr_chu_regs, afterInstr_cfg]
    cases hb : s.regs.byp
    · simp [hb, Regs.setChannel_cur_other, Regs.setChannel_comm _ _ _ _ _ _ _ hne]
    · simp [hb]

/-! ### Bypass -/

/-- Under bypass a command with no accepted press writes no register but the level. -/
theorem afterInstr_frozen {i : Instr} {s : State} (hb : s.regs.byp = true) (hi : acceptsPress s i = false) :
    ∃ l, (afterInstr i s).regs = { s.regs with lvl := l } := by
  cases i with
  | byp btn now => exact ⟨btn, bypassStep_quiet hi⟩
  | chu ch value mask tr ctl => exact ⟨s.regs.lvl, by rw [afterInstr_chu_skip s hb]; rfl⟩
  | _ => exact ⟨s.regs.lvl, rfl⟩

/-- Under bypass a run with no accepted press writes no register but the level (R141). -/
theorem runInstrs_frozen {is : List Instr} {s : State} (hb : s.regs.byp = true)
    (his : noPressAccepted is s = true) : ∃ l, (runInstrs is s).regs = { s.regs with lvl := l } := by
  induction is generalizing s with
  | nil => exact ⟨s.regs.lvl, rfl⟩
  | cons i is ih =>
    obtain ⟨hi, hrest⟩ := (noPressAccepted_cons i is s).1 his
    obtain ⟨l, hl⟩ := afterInstr_frozen hb hi
    obtain ⟨l', hl'⟩ := ih (by rw [hl]; exact hb) hrest
    exact ⟨l', by rw [runInstrs, hl', hl]⟩

/-- The channels do not hold the level. -/
theorem Regs.withLvl_channel (r : Regs) (l : Level) (ch : Chan) :
    Regs.cur { r with lvl := l } ch = r.cur ch ∧ Regs.tgt { r with lvl := l } ch = r.tgt ch := by
  cases ch <;> exact ⟨rfl, rfl⟩

/-- Settles O42: by `runInstrs_frozen` only the level moves, and a `CHU` after the run is still under
bypass. -/
theorem channelsFreezeUnderBypass : Obligations.ChannelsFreezeUnderBypass := by
  intro s is hb his
  obtain ⟨l, hl⟩ := runInstrs_frozen hb his
  have hend : (runInstrs is s).regs.byp = true := by rw [hl]; exact hb
  have hchannel : ∀ ch, (runInstrs is s).regs.cur ch = s.regs.cur ch ∧
      (runInstrs is s).regs.tgt ch = s.regs.tgt ch := by
    rw [hl]; exact Regs.withLvl_channel s.regs l
  refine ⟨hchannel, hend, by rw [hl], fun ch value mask tr ctl => ?_⟩
  rw [afterInstr_chu_skip _ hend, (hchannel ch).1]
  rfl

end Sys2Proof.Machine

namespace Sys2Proof.Machine

/-! ## `NOP` and the reserved opcodes -/

/-- A command that only presents a result answers a next state that differs in nothing else. -/
theorem exec_frame_of_respond {i : Instr} {s : State} {r : Result} (h : afterInstr i s = s.respond r) :
    ∃ t, exec i s = .next t ∧ t.regs = s.regs ∧ t.cfg = s.cfg ∧ t.input = s.input ∧ t.res = some r := by
  refine ⟨s.respond r, ?_, ?_⟩
  · rw [exec_eq_afterInstr, h]
  · simp only [State.respond_regs, State.respond_cfg, State.respond_input, State.respond_res, and_self]

/-- Settles O15: the opcode field 0 selects the `NOP` row (R63), and `NOP` only presents a result. -/
theorem nopChangesNothing : Obligations.NopChangesNothing := by
  have hrow : ∀ w : Word, w.extractLsb' 61 3 = 0b000#3 → decode w = .nop := fun _ => decode_of_opcode
  exact ⟨hrow, hrow _ (by decide), hrow _ (by decide), fun s => exec_frame_of_respond (afterInstr_nop s)⟩

/-- Settles O16: the opcode fields 5 to 7 select the reserved rows (R63), and each reserved command only
presents a result. -/
theorem reservedOpcodesReportIll : Obligations.ReservedOpcodesReportIll := by
  have hrow5 : ∀ w : Word, w.extractLsb' 61 3 = 0b101#3 → decode w = .rsv5 := fun _ => decode_of_opcode
  have hrow6 : ∀ w : Word, w.extractLsb' 61 3 = 0b110#3 → decode w = .rsv6 := fun _ => decode_of_opcode
  have hrow7 : ∀ w : Word, w.extractLsb' 61 3 = 0b111#3 → decode w = .rsv7 := fun _ => decode_of_opcode
  refine ⟨fun w => ⟨hrow5 w, hrow6 w, hrow7 w⟩, hrow5 _ (by decide), hrow6 _ (by decide),
    hrow7 _ (by decide), fun i hi s => ?_⟩
  have hcases : i = .rsv5 ∨ i = .rsv6 ∨ i = .rsv7 := by simpa using hi
  rcases hcases with rfl | rfl | rfl
  · exact exec_frame_of_respond (afterInstr_rsv5 s)
  · exact exec_frame_of_respond (afterInstr_rsv6 s)
  · exact exec_frame_of_respond (afterInstr_rsv7 s)

end Sys2Proof.Machine

namespace Sys2Proof.Machine

/-! ## The tick as a composition -/

/-- Settles O44: a tick runs its three commands in the order of R165, each command presents one result, and by
R147 its two `CHU`s, which both run in the state its `BYP` leaves, may trade places. -/
theorem tickIsItsThreeCommands : Obligations.TickIsItsThreeCommands := by
  intro k s
  obtain ⟨-, hswap⟩ := channelsAreIndependent
  exact ⟨rfl, resultsOf_length k.expand s, hswap _ _ _ _ _ _ _ _ (afterInstr (.byp k.btn k.now) s)⟩

end Sys2Proof.Machine

namespace Sys2Proof.Machine

/-! ## Totality of the step (R185)

A command answers the state `afterInstr` names, and the other two inputs of a step answer a next state of
their own. -/

/-- Every command, at every operand value and in every state, answers a next state. -/
theorem completes_exec (i : Instr) (s : State) : Completes (exec i s) :=
  ⟨afterInstr i s, exec_eq_afterInstr i s⟩

/-- A step with a reset next consumes it and resets the registers (R217). -/
theorem step_reset {s : State} {rest : List Input} (h : s.input = .reset :: rest) :
    step s = .next (s.withInput rest).applyReset := by
  simp [step, h]

/-- Settles O5: the result is the one of `afterInstr_res`. -/
theorem everyCommandCompletes : Obligations.EveryCommandCompletes := by
  refine ⟨fun w s => ?_, completes_exec⟩
  obtain ⟨r, hr⟩ := afterInstr_res (decode w) s
  exact ⟨afterInstr (decode w) s, r, exec_eq_afterInstr .., hr⟩

/-- Settles O56, over the next input: none, a command word, a reset. -/
theorem everyStepCompletes : Obligations.EveryStepCompletes := by
  intro s
  match h : s.input with
  | [] => exact ⟨_, step_idle h⟩
  | .command w :: rest =>
    rw [step_command h]
    exact completes_exec (decode w) (s.withInput rest)
  | .reset :: rest => exact ⟨_, step_reset h⟩

end Sys2Proof.Machine

namespace Sys2Proof.Machine

/-! ## The tick out of order

A tick's `CHU`s run before its `BYP` act in the mode the `BYP` is about to leave (70_reset_and_hazards.md rule
R220). -/

/-- The two `CHU`s of a tick. -/
def Tick.updates (k : Tick) : List Instr :=
  [.chu .ch0 k.value0 k.mask k.tr k.ctl, .chu .ch1 k.value1 k.mask k.tr k.ctl]

theorem Tick.expand_eq_cons_updates (k : Tick) : k.expand = .byp k.btn k.now :: k.updates := rfl

/-- Under bypass a tick's `CHU`s write no register. -/
theorem runInstrs_updates_of_on (k : Tick) {s : State} (hb : s.regs.byp = true) :
    (runInstrs k.updates s).regs = s.regs := by
  simp [Tick.updates, runInstrs, afterInstr_chu_regs, hb]

/-- With bypass off a tick's `CHU`s write the target of every channel. -/
theorem runInstrs_updates_tgt_of_off (k : Tick) {s : State} (hb : s.regs.byp = false) (ch : Chan) :
    (runInstrs k.updates s).regs.tgt ch = channelTarget s.cfg (k.value ch) k.mask k.tr := by
  simp only [Tick.updates, runInstrs]
  cases ch with
  | ch0 =>
    obtain ⟨-, hkept⟩ := afterInstr_chu_other .ch1 k.value1 k.mask k.tr k.ctl
      (afterInstr (.chu .ch0 k.value0 k.mask k.tr k.ctl) s) (o := .ch0) (by decide)
    simp [hkept, afterInstr_chu_tgt, hb, Tick.value]
  | ch1 => simp [afterInstr_chu_regs, hb, Tick.value]

/-- Settles O46. From ON the `CHU`s are skipped and the `BYP` resyncs the stale targets; from OFF the `BYP`
leaves the targets the `CHU`s wrote, where in order it turns bypass ON first and they are skipped. -/
theorem chuBeforeBypInATickActsOnTheOldMode : Obligations.ChuBeforeBypInATickActsOnTheOldMode := by
  intro k s hf swapped
  have hswapped : swapped.regs = bypassStep s.cfg (runInstrs k.updates s).regs k.btn k.now := by
    rw [← runInstrs_cfg k.updates s]; rfl
  rw [hswapped]
  refine ⟨fun hb ch => ?on, fun hb => ⟨fun ch => ?inOrder, ?ch0, ?ch1⟩⟩
  case on =>
    rw [runInstrs_updates_of_on k hb]
    simp [bypassStep_cur, hf, hb]
  case inOrder =>
    have hon : (afterInstr (.byp k.btn k.now) s).regs.byp = true := by simp [bypassStep_byp, hf, hb]
    rw [Tick.expand_eq_cons_updates, runInstrs, runInstrs_updates_of_on k hon]
    simp [bypassStep_cur, hb]
  case ch0 => rw [bypassStep_tgt]; exact runInstrs_updates_tgt_of_off k hb .ch0
  case ch1 => rw [bypassStep_tgt]; exact runInstrs_updates_tgt_of_off k hb .ch1

/-! ## Reset among the inputs and at the port -/

/-- Settles O2. -/
theorem resetInputReplacesTheRegisters : Obligations.ResetInputReplacesTheRegisters :=
  fun s rest h => ⟨(s.withInput rest).applyReset, step_reset h, rfl, rfl, rfl, rfl⟩

/-- Where reset is asserted, no command is accepted and `cmd_ready` is low (R215, R217). -/
theorem PortState.not_accepts_of_reset (p : PortState) {x : Pins} (h : x.rst = true) :
    p.accepts x = false ∧ p.cmdReady x = false := by
  simp [PortState.accepts, PortState.cmdReady, h]

/-- Settles O53: `clockEdge_reset` names the state after the edge, which is at rest. -/
theorem resetWinsAtThePort : Obligations.ResetWinsAtThePort := by
  intro p x y hx
  obtain ⟨haccepts, hready⟩ := p.not_accepts_of_reset hx
  rw [clockEdge_reset hx]
  exact ⟨haccepts, hready, rfl, rfl, rfl, rfl, fun hy hv => (PortState.accepts_iff ..).2 ⟨hy, hv, rfl⟩⟩

end Sys2Proof.Machine
